-- ==== Sys2Proof/Word.lean ====
section
/-! DEFINITION. The bit vectors the spec names (R10, R11): the command word and the integer ports, the
control word, the binary64 pattern, and a line's level. -/

namespace Sys2Proof

/-- `Bits(32)`: the command port, the integer operand ports and the result port (R21, R23, R25). -/
abbrev Word32 := BitVec 32

/-- `Bits(16)`: the control word (R74) and `TX_WORD` (R32). -/
abbrev Word16 := BitVec 16

/-- `Binary64`: an IEEE 754 binary64 bit pattern (R11, R22). -/
abbrev F64 := BitVec 64

/-- `Bits(1)`: the level of an output line, `true` for 1 (R27 to R29). -/
abbrev Level := Bool

/-- `bits_n(k)` of R11: the low `n` bits of the two's complement integer `k`. -/
abbrev bitsOf (n : Nat) (k : Int) : BitVec n := BitVec.ofInt n k

/-- `sint(v)` of R11. -/
abbrev sint {n : Nat} (v : BitVec n) : Int := v.toInt

end Sys2Proof
end

