-- ==== Sys2Proof/Config.lean ====
section
/-! DEFINITION. What is fixed for one block: the parameters of R9, with the value the spec takes for each, the
constants of R8, and the free values, which are opaque constants without a body. -/

namespace Sys2Proof

/-- A non-negative rational number `num / den`. -/
structure Ratio where
  num : Nat
  den : Nat
  deriving DecidableEq, Repr

/-- The parameters of R9 that a rule reads: arguments of the model. A machine carries its own in its state, where
no step changes them (log 7). -/
structure Params where
  /-- `EPS_OCT` (D5). -/
  epsOct : Ratio
  /-- `EPS_DAC` (D5). -/
  epsDac : Ratio
  /-- `W_INT` (D12). -/
  wInt : Nat
  /-- `F_MODEL_LO`, as a binary64 pattern (D10; log 8). -/
  fModelLo : F64
  /-- `F_MODEL_HI`, as a binary64 pattern (D10; log 8). -/
  fModelHi : F64
  /-- `E_MIN` (D11). -/
  eMin : Int
  /-- `E_MAX` (D11). -/
  eMax : Int
  /-- `EXPLICIT_CLK_LOW` (D15). -/
  explicitClkLow : Bool
  deriving DecidableEq, Repr

/-- "the value this spec takes" for each parameter (R9). The patterns are those of 2^-1000 and 2^1000. -/
def Params.spec : Params where
  epsOct := ⟨1, 2 ^ 40⟩
  epsDac := ⟨1, 2 ^ 40⟩
  wInt := 32
  fModelLo := 0x0170000000000000
  fModelHi := 0x7E70000000000000
  eMin := -1010
  eMax := 1010
  explicitClkLow := false

namespace Config

/-! ## The constants of R8 -/

/-- `OCT_K` = 3.322 is the exact rational `octKNum / octKDen` (R8, R12, D13). -/
def octKNum : Nat := 3322
/-- See `octKNum`. -/
def octKDen : Nat := 1000
/-- `OCT_REF`, in Hz (R8). -/
def octRef : Nat := 1039
/-- `DAC_BIAS` (R8). -/
def dacBias : Nat := 2048
/-- `DAC_K` (R8). -/
def dacK : Nat := 2078
/-- `DAC_EXP0` (R8). -/
def dacExp0 : Int := 10
/-- `CNF_FIXED` (R8, R111). -/
def cnfFixed : Int := 0
/-- `T_SETTLE`, a minimum in microseconds (R8, R144, R145). -/
def tSettle : Nat := 1
/-- `T_FINAL`, a minimum in microseconds (R8, R147). -/
def tFinal : Nat := 10

/-! ## The OPEN parameters of R9 -/

/-- The ways a platform may reach the command and operand ports (R51). -/
inductive PortBinding where
  /-- Memory-mapped registers. -/
  | memoryMapped
  /-- A processor's I/O pins, as in the source system. -/
  | pins
  /-- Direct wiring. -/
  | direct
  deriving DecidableEq, Repr, Inhabited

/-- `CMD_PORT_BINDING`, OPEN in the spec (R9, R51, D24; log 13): no rule depends on it. -/
opaque cmdPortBinding : PortBinding

/-- `OSC_OE_ACTIVE`, OPEN in the spec (R9, R30, D25; log 12): the electrical level that enables
the oscillator output. -/
opaque oscOeActive : Level

/-- `DRV_EN_ACTIVE`, OPEN in the spec (R9, R30, D25; log 12): the electrical level that enables
the downstream driver. -/
opaque drvEnActive : Level

/-! ## The free values (log 5, log 6)

They are functions of the operands, because R112 makes every command's result one, and of the block's
parameters. The evaluation
confines them to the admitted sets of R101 and R102; nothing else is known of them. -/

/-- FREE VALUE: which octave the hardware evaluates where R101 admits more than one. -/
opaque octFree : Params → F64 → Int

/-- FREE VALUE: which DAC value the hardware evaluates where R102 admits more than one. -/
opaque dacFree : Params → F64 → Int → Int

/-! ## Working precision of the octave evaluation

Not a parameter of the hardware: how finely `Machine/LogTen.lean` encloses a logarithm (log 5). -/

/-- The logarithm is enclosed to about `2 ^ (-logSteps)`. -/
def logSteps : Nat := 96

/-- Scale of a decimal mantissa: 50 digits after the point. -/
def mantScale : Nat := 10 ^ 50

/-- Arguments are multiplied by `10 ^ logBias` so that their logarithms are positive. -/
def logBias : Nat := 400

end Config

end Sys2Proof
end

