-- ==== Sys2Proof/Syntax.lean ====
section
/-! DEFINITION. The commands of the block (R2, R71): one constructor per row of spec/opcode_table.json. A
command word has no operand field (R73), so no constructor has an argument. -/

namespace Sys2Proof

/-- The five commands (R71). -/
inductive Instr where
  /-- Octave extraction (R105). -/
  | octave
  /-- DAC value (R107). -/
  | dac
  /-- Field packing (R109). -/
  | pack
  /-- Frequency to control word (R111). -/
  | encode
  /-- Serial transmission of one word (R140). -/
  | send
  deriving DecidableEq, Repr

end Sys2Proof
end

