-- ==== Sys2Proof/Assembly.lean ====
section
/-! DEFINITION. The spec's command syntax as a syntax tree (R80, R81): operands, the five commands with their
operands, and the pseudo-instruction SETFREQ. Splitting a text line into these trees is not modelled
(log 23). -/

namespace Sys2Proof

/-- `<freq>` of R80. -/
inductive FreqLit where
  /-- A decimal literal: `num / 10 ^ scale`, negated where `neg` is set. -/
  | dec (neg : Bool) (num scale : Nat)
  /-- `nan` -/
  | nan
  /-- `+inf` -/
  | posInf
  /-- `-inf` -/
  | negInf
  /-- `f64:0x<16 hex digits>` -/
  | raw (p : F64)
  deriving DecidableEq, Repr

/-- `<int>` of R80. -/
inductive IntLit where
  /-- A decimal integer. -/
  | dec (v : Int)
  /-- `0x<hex>`: the bit pattern. -/
  | hex (v : Nat)
  /-- The word `RES`: what the result port holds when the command is issued. -/
  | res
  deriving DecidableEq, Repr

/-- One line of a program (R80), or the pseudo-instruction (R81). -/
inductive AsmCmd where
  | octave (freq : FreqLit)
  | dac (freq : FreqLit) (octave : IntLit)
  | pack (octave dac config : IntLit)
  | encode (freq : FreqLit)
  | send (word : IntLit)
  | setFreq (freq : FreqLit)
  deriving DecidableEq, Repr

end Sys2Proof
end

