-- ==== Sys2Proof/WellFormed.lean ====
section
/-! DEFINITION. Well-formed syntax: a command has nothing to check (no field), the operands of the assembler
syntax have the ranges R80 gives them. -/

namespace Sys2Proof

/-- Every command is well formed: its word is constant (R70, R71). -/
def Instr.wellFormed : Instr → Bool
  | .octave => true
  | .dac => true
  | .pack => true
  | .encode => true
  | .send => true

/-- Twice 1023 plus the 52 fraction bits: a finite binary64 value is a multiple of `2 ^ -1074` below
`2 ^ 1024` (R53, G1). -/
def f64FracBits : Nat := 1074

/-- `n * 2 ^ -1074` is a binary64 value: it has at most 53 significant bits and is below `2 ^ 1024`. -/
def scaledIsBinary64 (n : Nat) : Bool :=
  (n < 2 ^ 53 || n % 2 ^ (n.log2 - 52) == 0) && n < 2 ^ (f64FracBits + 1024)

/-- "a decimal literal that binary64 cannot hold exactly is refused by the assembler" (R80). -/
def decimalIsBinary64 (num scale : Nat) : Bool :=
  num * 2 ^ f64FracBits % 10 ^ scale == 0 && scaledIsBinary64 (num * 2 ^ f64FracBits / 10 ^ scale)

/-- R80: a decimal literal is exactly representable. -/
def FreqLit.wellFormed : FreqLit → Bool
  | .dec _ num scale => decimalIsBinary64 num scale
  | .nan | .posInf | .negInf | .raw _ => true

/-- R80: a decimal integer lies in [-2^31, 2^31-1], a hexadecimal one has up to 32 bits. -/
def IntLit.wellFormed : IntLit → Bool
  | .dec v => decide (-2 ^ 31 ≤ v) && decide (v ≤ 2 ^ 31 - 1)
  | .hex v => decide (v < 2 ^ 32)
  | .res => true

/-- Every operand is well formed. -/
def AsmCmd.wellFormed : AsmCmd → Bool
  | .octave f | .encode f | .setFreq f => f.wellFormed
  | .dac f x => f.wellFormed && x.wellFormed
  | .pack x y z => x.wellFormed && y.wellFormed && z.wellFormed
  | .send x => x.wellFormed

end Sys2Proof
end

