-- ==== Sys2Proof/Decode.lean ====
section
/-! DEFINITION. The decoder of a command word, total on 32-bit words and rejecting by name (R70 to R72, R78);
then the encoder, and the binary64 pattern of an operand literal (R80, R82). -/

namespace Sys2Proof

/-- Why a command word is reserved (R78). -/
inductive DecodeReject where
  /-- `CMD[31:3] ≠ 0`. -/
  | reservedBits
  /-- `CMD[31:3] = 0` and `CMD[2:0]` is 5, 6 or 7. -/
  | reservedOp
  deriving DecidableEq, Repr

/-- What a command word reads as. -/
inductive Decoded where
  | command (i : Instr)
  | reserved (why : DecodeReject)
  deriving DecidableEq, Repr

/-- The field `op` = `CMD[2:0]` (R70). -/
def opField (c : Word32) : BitVec 3 := c.extractLsb' 0 3

/-- The field `rsv` = `CMD[31:3]` (R70). -/
def rsvField (c : Word32) : BitVec 29 := c.extractLsb' 3 29

/-- `decode` of R72. -/
def decode (c : Word32) : Decoded :=
  if rsvField c ≠ 0 then .reserved .reservedBits
  else if opField c = 0 then .command .octave
  else if opField c = 1 then .command .dac
  else if opField c = 2 then .command .pack
  else if opField c = 3 then .command .encode
  else if opField c = 4 then .command .send
  else .reserved .reservedOp

/-- The `op` value of a command (R71). -/
def opOf : Instr → BitVec 3
  | .octave => 0
  | .dac => 1
  | .pack => 2
  | .encode => 3
  | .send => 4

/-- The command word: `rsv` zero above `op` (R70). -/
def encode (i : Instr) : Word32 := (0 : BitVec 29) ++ opOf i

/-- The host's view of the decoder: the word as the opcode table numbers its bits, all of them at or
above `nbits` taken as 0. A command word has 32 bits, so a longer one decodes only with zeros there. -/
def decodeTableWord (nbits w : Nat) : Option Instr :=
  let v := w % 2 ^ nbits
  if v < 2 ^ 32 then
    match decode (BitVec.ofNat 32 v) with
    | .command i => some i
    | .reserved _ => none
  else none

/-! ## Operand literals (R80, R82) -/

/-- The pattern of the binary64 value `n * 2 ^ -1074` (R53, G1): below `2 ^ 53` the pattern is the number
itself; above, with `k` bits dropped, the exponent field grows by `k`. -/
def patternOfScaled (n : Nat) : F64 :=
  if n < 2 ^ 53 then BitVec.ofNat 64 n
  else
    let k := n.log2 - 52
    BitVec.ofNat 64 (k * 2 ^ 52 + n / 2 ^ k)

/-- The sign bit of a binary64 pattern. -/
def f64SignBit : F64 := 0x8000000000000000

/-- The pattern a frequency literal stands for (R80, R82). The pattern of `nan` is the quiet NaN of
95_test_vectors.md; `-0.0` is the negated decimal 0. -/
def FreqLit.pattern : FreqLit → F64
  | .dec neg num scale =>
    let p := patternOfScaled (num * 2 ^ f64FracBits / 10 ^ scale)
    if neg then f64SignBit ||| p else p
  | .nan => 0x7FF8000000000000
  | .posInf => 0x7FF0000000000000
  | .negInf => 0xFFF0000000000000
  | .raw p => p

end Sys2Proof
end

