-- ==== Sys2Proof/Machine/State.lean ====
section
/-! DEFINITION. The state of the block and of its environment (R20 to R39, R55, R180, R190), the moves the
environment can make, the machine right after reset, and why a step can stop. -/

namespace Sys2Proof.Machine

/-- `TX_PHASE` (R31). The index of the `Bit` phases is `TX_BIT` (R32). -/
inductive Phase where
  | idle
  | opening
  | openClk
  | settle0
  | bitData
  | bitRise
  | bitHigh
  | bitFall
  | bitLow
  | closing
  | finalWait
  deriving DecidableEq, Repr

/-- The kinds `FAULT` can hold beside `None` (R33, R172). -/
inductive FaultKind where
  | illegalCommand
  | freqNaN
  | freqPosInf
  | freqOutOfModelledRange
  | dacExponentRange
  | dacIntRange
  deriving DecidableEq, Repr

/-- The transmitter's output lines (R27 to R29). -/
inductive Line where
  | data
  | clk
  | ceN
  deriving DecidableEq, Repr

/-- A line event `(L, b, t)` (R55). -/
structure LineEvent where
  line : Line
  level : Level
  time : Nat
  deriving DecidableEq, Repr

/-- A host-owned enable line (R30): its logical value, or that the host has not written it yet (R193,
P1 "unknown"; log 12). -/
inductive HostLine where
  | unwritten
  | disabled
  | enabled
  deriving DecidableEq, Repr

/-- The integer operand ports (R23). -/
inductive IntPort where
  | x
  | y
  | z
  deriving DecidableEq, Repr

/-- What the host can do to the block (R206). -/
inductive HostMove where
  /-- Write the frequency port (R22). -/
  | setF (v : F64)
  /-- Write an integer port (R23). -/
  | setInt (p : IntPort) (v : Word32)
  /-- Copy the result port to an integer port: the operand `RES` of R80. -/
  | copyRes (p : IntPort)
  /-- Place a command word on `CMD` and present it (R21, R26). -/
  | present (c : Word32)
  /-- Enable or disable the oscillator output, `OSC_OE` (R30, R195). -/
  | setOscOe (on : Bool)
  /-- Enable or disable the downstream driver, `DRV_EN` (R30, R195). -/
  | setDrvEn (on : Bool)
  /-- Assert the reset input (R190). -/
  | assertReset
  /-- Release the reset input (R190). -/
  | releaseReset
  deriving DecidableEq, Repr

/-- What the host does when it has the turn (log 1). -/
inductive HostAct where
  /-- It makes a move. -/
  | move (a : HostMove)
  /-- It waits until its last command has completed (R206, R208). -/
  | awaitReady
  deriving DecidableEq, Repr

/-- Whose turn a step is (R20, R178, R180; log 1). -/
inductive Turn where
  /-- The block takes its next step if it has one enabled. -/
  | block
  /-- The host does its next pending act, if it has one and need not wait. -/
  | host
  /-- The time base advances by `dt` microseconds. -/
  | time (dt : Nat)
  deriving DecidableEq, Repr

/-- The state (INVENTORY.md, heading State). -/
structure State where
  /-- `CMD` (R21). -/
  cmd : Word32
  /-- A command is presented on `CMD` and not yet accepted (R26). -/
  presented : Bool
  /-- `F` (R22). -/
  f : F64
  /-- `X` (R23). -/
  x : Word32
  /-- `Y` (R23). -/
  y : Word32
  /-- `Z` (R23). -/
  z : Word32
  /-- `RES`; `none` is the spec's own state `Unwritten` (R25). -/
  res : Option Word32
  /-- `DATA` (R27). -/
  data : Level
  /-- `CLK` (R28). -/
  clk : Level
  /-- `CE_N` (R29). -/
  ceN : Level
  /-- `TX_PHASE` (R31). -/
  txPhase : Phase
  /-- `TX_WORD` (R32). -/
  txWord : Word16
  /-- `TX_BIT` (R32). -/
  txBit : BitVec 4
  /-- `TX_T0` (R32, R142). -/
  txT0 : Nat
  /-- `FAULT`; `none` is the spec's `None` (R33). -/
  fault : Option FaultKind
  /-- The line history, oldest event first (R55). -/
  history : List LineEvent
  /-- `now`, the time base in microseconds (R180). -/
  now : Nat
  /-- `OSC_OE` (R30). -/
  oscOe : HostLine
  /-- `DRV_EN` (R30). -/
  drvEn : HostLine
  /-- The reset input is asserted (R190). -/
  resetIn : Bool
  /-- MODEL'S OWN: the block's parameters (R9). No step changes them (log 7). -/
  params : Params
  /-- MODEL'S OWN: what the host will do at its turns, next act first (log 1). -/
  pending : List HostAct
  /-- MODEL'S OWN: whose turn the coming steps are, next one first (log 1); with none listed it is the
  block's (log 2). -/
  turns : List Turn
  deriving DecidableEq, Repr

/-- The machine right after reset is released (R38, R190, R192). `TX_WORD`, `TX_BIT` and `TX_T0`, which the
spec leaves unspecified, are 0 (DESIGN CHOICE, log 10), as are the host's ports (log 11) and the time
base (log 3); the parameters have the values the spec takes (R9), and host and schedule have nothing pending
(log 1). -/
def State.reset : State where
  cmd := 0
  presented := false
  f := 0
  x := 0
  y := 0
  z := 0
  res := none
  data := false
  clk := false
  ceN := true
  txPhase := .idle
  txWord := 0
  txBit := 0
  txT0 := 0
  fault := none
  history := []
  now := 0
  oscOe := .unwritten
  drvEn := .unwritten
  resetIn := false
  params := .spec
  pending := []
  turns := []

/-- Why the machine stops with a fault. The block's own faults are no stop: they are values of `FAULT`
(R171). -/
inductive Fault where
  /-- The host read `RES` while it was `Unwritten`: "a fault of the reading program, never a value"
  (R25, K10). Raised by the host's move `copyRes`, never by a command. Safe (log 4). -/
  | resUnwritten
  deriving DecidableEq, Repr

/-- Why the model gives an instruction no meaning. -/
inductive Refusal where
  /-- An arm of `exec` without a meaning. Raised by no arm: every command has its meaning. Safe. -/
  | notModelled (mnemonic : String)
  deriving DecidableEq, Repr

end Sys2Proof.Machine
end

