-- ==== Sys2Proof/Machine/Flags.lean ====
section
/-! DEFINITION. The derived status signals. The block has no flag and no condition code (R35, R100); `READY` is
computed, not stored (R26). -/

namespace Sys2Proof.Machine

/-- `READY = (TX_PHASE = Idle) and (FAULT = None)` (R26). -/
def State.ready (s : State) : Bool := s.txPhase == .idle && s.fault == none

/-- The command unit can accept a command: `READY`, and reset is not asserted (R26, R190). -/
def State.canAccept (s : State) : Bool := s.ready && !s.resetIn

end Sys2Proof.Machine
end

