-- ==== Sys2Proof/Machine/Ops.lean ====
section
/-! DEFINITION. The named operations on the state: line writes, the result port, acceptance and completion of a
command, raising a fault, reset, and the time base (R13). -/

namespace Sys2Proof.Machine

/-! ## Lines (R55) -/

/-- The level of a line. -/
def State.level (s : State) : Line → Level
  | .data => s.data
  | .clk => s.clk
  | .ceN => s.ceN

/-- A line takes a level, without an event. -/
def State.setLevel (s : State) : Line → Level → State
  | .data, b => { s with data := b }
  | .clk, b => { s with clk := b }
  | .ceN, b => { s with ceN := b }

/-- Append an event to the line history, stamped with the time base (R55). -/
def State.record (s : State) (l : Line) (b : Level) : State :=
  { s with history := s.history ++ [⟨l, b, s.now⟩] }

/-- `line L <- b` (R13, R55): one write, one event, also where the line has that level already. -/
def State.writeLine (s : State) (l : Line) (b : Level) : State := (s.setLevel l b).record l b

/-! ## Ports -/

/-- Read an integer operand port (R23). -/
def State.intPort (s : State) : IntPort → Word32
  | .x => s.x
  | .y => s.y
  | .z => s.z

/-- The host writes an integer operand port (R23). -/
def State.setIntPort (s : State) (v : Word32) : IntPort → State
  | .x => { s with x := v }
  | .y => { s with y := v }
  | .z => { s with z := v }

/-- `RES <- v` (R13, R25). -/
def State.writeRes (s : State) (v : Word32) : State := { s with res := some v }

/-! ## Commands and faults -/

/-- The presented command is taken from the port (R26; log 15). -/
def State.take (s : State) : State := { s with presented := false }

/-- The acceptance step of a command: where the command unit can accept, the command's effect on the
state it is taken from; otherwise the command is held and nothing changes (R26, R179; log 16). -/
def accept (s : State) (effect : State → State) : Host.Outcome State Fault Refusal :=
  if s.canAccept then .next (effect s.take) else .next s

/-- `raise Fault(kind)` (R171): the kind is recorded and nothing else is written. There is no saved state, no
vector and no handler; the way out is `State.assertReset` (R175). -/
def State.raiseFault (s : State) (k : FaultKind) : State := { s with fault := some k }

/-- Place a command word on `CMD` and present it (R21, R26). -/
def State.presentCommand (s : State) (c : Word32) : State := { s with cmd := c, presented := true }

/-! ## Reset (R190, R191) -/

/-- A line goes to its reset level; only a change is a line event (R190). -/
def State.resetLine (s : State) (l : Line) (b : Level) : State :=
  if s.level l = b then s else s.writeLine l b

/-- The three lines go to their reset levels, `DATA`, `CLK`, then `CE_N` (R190, L2.7; log 14). -/
def State.resetLines (s : State) : State :=
  ((s.resetLine .data State.reset.data).resetLine .clk State.reset.clk).resetLine .ceN State.reset.ceN

/-- The reset input is asserted: every piece of block state takes its reset value (R190), which abandons a
SEND (R191). The host's ports and lines, the line history and the time base are not block state. -/
def State.assertReset (s : State) : State :=
  { s.resetLines with
    res := State.reset.res
    txPhase := State.reset.txPhase
    txWord := State.reset.txWord
    txBit := State.reset.txBit
    txT0 := State.reset.txT0
    fault := State.reset.fault
    resetIn := true }

/-- The reset input is released (R190). -/
def State.releaseReset (s : State) : State := { s with resetIn := false }

/-! ## Time base -/

/-- The time base advances by `dt` microseconds (R180). -/
def State.advance (s : State) (dt : Nat) : State := { s with now := s.now + dt }

/-! ## The schedule (log 1) -/

/-- The first listed turn is used up; where none is listed, nothing changes. -/
def State.popTurn (s : State) : State := { s with turns := s.turns.tail }

/-- The host's next act is done. -/
def State.popPending (s : State) : State := { s with pending := s.pending.tail }

/-- The move the host makes in the coming step, if the turn is the host's and its next act is one. -/
def State.nextHostMove (s : State) : Option HostMove :=
  match s.turns, s.pending with
  | .host :: _, .move a :: _ => some a
  | _, _ => none

/-- The host puts command word `c` where the next step fetches its command, in a block that can accept it,
and gives the block the turn (log 20, log 25). -/
def State.placeCommand (s : State) (c : Word32) : State :=
  { s.presentCommand c with txPhase := .idle, fault := none, resetIn := false, turns := [] }

end Sys2Proof.Machine
end

