-- ==== Sys2Proof/Machine/Operands.lean ====
section
/-! DEFINITION. The operands of the commands (R24, R73): how each port is read, the binary64 value of `F` (R53)
and its classification (R104). -/

namespace Sys2Proof.Machine

/-! ## Binary64 (R53, G1; log 17) -/

/-- Bit 63. -/
def f64Sign (v : F64) : Bool := v.getLsbD 63

/-- Bits 62:52. -/
def f64Exponent (v : F64) : Nat := (v.extractLsb' 52 11).toNat

/-- Bits 51:0. -/
def f64Fraction (v : F64) : Nat := (v.extractLsb' 0 52).toNat

/-- The exponent field of the NaNs and infinities. -/
def f64ExponentMax : Nat := 2047

/-- A NaN, any payload, either sign (R172). -/
def isNaN (v : F64) : Bool := f64Exponent v == f64ExponentMax && f64Fraction v != 0

/-- The pattern of +inf (R172). -/
def posInfPattern : F64 := 0x7FF0000000000000

/-- The magnitude of a finite pattern as an integer multiple of `2 ^ -1074`: exact for every finite
binary64 value, subnormal ones too. -/
def f64Scaled (v : F64) : Nat :=
  if f64Exponent v = 0 then f64Fraction v
  else (2 ^ 52 + f64Fraction v) * 2 ^ (f64Exponent v - 1)

/-- `val(F) <= 0` under the comparison of IEEE 754, for `F` neither NaN nor +inf (R104, G6): a set sign
bit (-0, negative finite, -inf) or +0. -/
def f64NonPositive (v : F64) : Bool := f64Sign v || v == 0

/-- What `classify` answers (R104). -/
inductive FreqClass where
  /-- It raises this fault. -/
  | raises (k : FaultKind)
  /-- `NonPos`. -/
  | nonPos
  /-- `Pos(val(F))`. -/
  | pos
  deriving DecidableEq, Repr

/-- `classify(F)` (R104, in the order of R174). -/
def classify (p : Params) (v : F64) : FreqClass :=
  if isNaN v then .raises .freqNaN
  else if v = posInfPattern then .raises .freqPosInf
  else if f64NonPositive v then .nonPos
  else if f64Scaled v < f64Scaled p.fModelLo || f64Scaled v > f64Scaled p.fModelHi then
    .raises .freqOutOfModelledRange
  else .pos

/-- A finite pattern of a positive number. -/
def f64FinitePositive (v : F64) : Bool :=
  !f64Sign v && f64Exponent v < f64ExponentMax && 0 < f64Scaled v

/-- A relative tolerance between 0 and 1. -/
def isTolerance (e : Ratio) : Bool := 0 < e.den && e.num ≤ e.den

/-- Parameters the rules make sense for (R9): tolerances, an integer width that holds every octave and fits `RES`,
and finite positive bounds of the modelled range. Those of the spec are such, and the exact configuration with
both tolerances 0 is (log 8). -/
def admissible (p : Params) : Bool :=
  isTolerance p.epsOct && isTolerance p.epsDac && 12 ≤ p.wInt && p.wInt ≤ 32 &&
    f64FinitePositive p.fModelLo && f64FinitePositive p.fModelHi

/-! ## Integer operands (R73) -/

/-- DAC's `octave`: `sint(X)`. -/
def State.octaveOperand (s : State) : Int := sint s.x

/-- SEND's `word`: `X[15:0]`, the upper half ignored (D14). -/
def State.wordOperand (s : State) : Word16 := s.x.extractLsb' 0 16

/-! ## Which ports a command reads (R24) -/

/-- The command reads `F` (R22, R24). -/
def readsF : Instr → Bool
  | .octave | .dac | .encode => true
  | .pack | .send => false

/-- The command reads an integer port (R23, R24). -/
def readsInt : Instr → IntPort → Bool
  | .octave, _ => false
  | .dac, p => p == .x
  | .pack, _ => true
  | .encode, _ => false
  | .send, p => p == .x

end Sys2Proof.Machine
end

