-- ==== Sys2Proof/Machine/LogTen.lean ====
section
/-! DEFINITION. A rigorous enclosure of a decimal logarithm in integer arithmetic, by repeated squaring of a
decimal mantissa rounded down for the lower bound and up for the upper one. It is how the model finds the
octaves R101 admits without real arithmetic (log 5). -/

namespace Sys2Proof.Machine

/-- Quotient rounded up. -/
def ceilDiv (a b : Nat) : Nat := (a + (b - 1)) / b

/-- `k` squarings of the number `m / mantScale * 10 ^ e`, the mantissa rounded down at each; the answer is
the decimal exponent reached. -/
def logDown : Nat → Nat → Nat → Nat
  | 0, _, e => e
  | k + 1, m, e =>
    if m * m < 10 * Config.mantScale * Config.mantScale then
      logDown k (m * m / Config.mantScale) (2 * e)
    else logDown k (m * m / (10 * Config.mantScale)) (2 * e + 1)

/-- As `logDown`, the mantissa rounded up at each squaring. -/
def logUp : Nat → Nat → Nat → Nat
  | 0, _, e => e
  | k + 1, m, e =>
    if m * m < 10 * Config.mantScale * Config.mantScale then
      logUp k (ceilDiv (m * m) Config.mantScale) (2 * e)
    else logUp k (ceilDiv (m * m) (10 * Config.mantScale)) (2 * e + 1)

/-- A lower bound of `2 ^ logSteps * log10 (num / den)`, for `num / den ≥ 1`. -/
def logTenLow (num den : Nat) : Nat :=
  let e := Nat.log 10 (num / den)
  logDown Config.logSteps (num * Config.mantScale / (den * 10 ^ e)) e

/-- An upper bound of `2 ^ logSteps * log10 (num / den)`, for `num / den ≥ 1`. -/
def logTenHigh (num den : Nat) : Nat :=
  let e := Nat.log 10 (num / den)
  logUp Config.logSteps (ceilDiv (num * Config.mantScale) (den * 10 ^ e)) e + 1

end Sys2Proof.Machine
end

