-- ==== Sys2Proof/Machine/Evaluate.lean ====
section
/-! DEFINITION. The encoder's evaluation functions `octEval` and `dacEval` (R101 to R103), each confined to the
set its rule admits and free inside it, and the packing of the control word (R75). -/

namespace Sys2Proof.Machine

/-- The one integer between `lo` and `hi`, or where there are more, the one nearest to the free value. -/
def pick (lo hi free : Int) : Int :=
  if lo = hi then lo else max (min lo hi) (min (max lo hi) free)

/-! ## Octave (R101, R103) -/

/-- `f / OCT_REF * 10 ^ logBias` for the frequency `f` of pattern `v`: its numerator. -/
def octNum (v : F64) : Nat := f64Scaled v * 10 ^ Config.logBias

/-- The denominator that goes with `octNum`. -/
def octDen : Nat := Config.octRef * 2 ^ f64FracBits

/-- The common denominator of the bounds below: the exact pre-floor value v(f) of R101 lies between
`octNumerLow v / octScale` and `octNumerHigh v / octScale`. -/
def octScale : Int := Config.octKDen * 2 ^ Config.logSteps

/-- See `octScale`. -/
def octNumerLow (v : F64) : Int :=
  Config.octKNum * (logTenLow (octNum v) octDen - Config.logBias * 2 ^ Config.logSteps)

/-- See `octScale`. -/
def octNumerHigh (v : F64) : Int :=
  Config.octKNum * (logTenHigh (octNum v) octDen - Config.logBias * 2 ^ Config.logSteps)

/-- `floor (q - e * max (1, |q|))` for `q = n / octScale`, with `EPS_OCT` for `e`. -/
def octBandLow (e : Ratio) (n : Int) : Int :=
  (n * e.den - e.num * max octScale |n|) / (octScale * e.den)

/-- `floor (q + e * max (1, |q|))` for `q = n / octScale`, with `EPS_OCT` for `e`. -/
def octBandHigh (e : Ratio) (n : Int) : Int :=
  (n * e.den + e.num * max octScale |n|) / (octScale * e.den)

/-- The frequency 1039 Hz, the exact case (a) of R103. -/
def isOctRef (v : F64) : Bool := f64Scaled v == Config.octRef * 2 ^ f64FracBits

/-- The least octave R101 and R103 admit. -/
def octLow (p : Params) (v : F64) : Int :=
  if isOctRef v then 0 else octBandLow p.epsOct (octNumerHigh v)

/-- The greatest octave R101 and R103 admit. -/
def octHigh (p : Params) (v : F64) : Int :=
  if isOctRef v then 0 else octBandHigh p.epsOct (octNumerLow v)

/-- The enclosure settles the ends of the admitted set: computed from either bound of v(f) they are the
same. Then `octLow` and `octHigh` are exactly the ends of the set; otherwise the set may have one octave more
(log 5). -/
def octDecided (p : Params) (v : F64) : Bool :=
  isOctRef v ||
    (octBandLow p.epsOct (octNumerLow v) == octBandLow p.epsOct (octNumerHigh v) &&
      octBandHigh p.epsOct (octNumerLow v) == octBandHigh p.epsOct (octNumerHigh v))

/-- `octEval` (R101): an octave of the admitted set, free inside it (log 5). -/
def octEval (p : Params) (v : F64) : Int := pick (octLow p v) (octHigh p v) (Config.octFree p v)

/-! ## DAC (R102, R103) -/

/-- `10 + o + 1074`: the exponent of the power of two beside a magnitude in multiples of `2 ^ -1074`. -/
def dacExponent (o : Int) : Int := Config.dacExp0 + o + f64FracBits

/-- The exact pre-truncation value x(f, o) of R102 is `dacNum v o / dacDen v o`; a negative power of two
multiplies the other terms. -/
def dacNum (v : F64) (o : Int) : Int :=
  Config.dacBias * f64Scaled v * 2 ^ (-dacExponent o).toNat -
    Config.dacK * 2 ^ (dacExponent o).toNat

/-- See `dacNum`. -/
def dacDen (v : F64) (o : Int) : Int := f64Scaled v * 2 ^ (-dacExponent o).toNat

/-- x(f, o) is an integer: the exact case (b) of R103. -/
def dacExact (v : F64) (o : Int) : Bool := dacNum v o % dacDen v o == 0

/-- The half width `EPS_DAC * max (1, |x|)` of the band, as a multiple of `1 / (dacDen v o * den)`, with
`EPS_DAC` = `num / den`. -/
def dacBand (e : Ratio) (v : F64) (o : Int) : Int := e.num * max (dacDen v o) |dacNum v o|

/-- The least DAC value R102 and R103 admit: `trunc0` of the band's lower end. -/
def dacLow (p : Params) (v : F64) (o : Int) : Int :=
  if dacExact v o then dacNum v o / dacDen v o
  else (dacNum v o * p.epsDac.den - dacBand p.epsDac v o).tdiv (dacDen v o * p.epsDac.den)

/-- The greatest DAC value R102 and R103 admit. -/
def dacHigh (p : Params) (v : F64) (o : Int) : Int :=
  if dacExact v o then dacNum v o / dacDen v o
  else (dacNum v o * p.epsDac.den + dacBand p.epsDac v o).tdiv (dacDen v o * p.epsDac.den)

/-- `dacEval` (R102): a DAC value of the admitted set, free inside it (log 6). -/
def dacEval (p : Params) (v : F64) (o : Int) : Int :=
  pick (dacLow p v o) (dacHigh p v o) (Config.dacFree p v o)

/-- Least value of an integer result of `W_INT` bits (R9). -/
def intMin (p : Params) : Int := -2 ^ (p.wInt - 1)

/-- Greatest value of an integer result of `W_INT` bits (R9). -/
def intMax (p : Params) : Int := 2 ^ (p.wInt - 1) - 1

/-- The DAC result fits `W_INT` bits (R107). Where the whole admitted set does, or none of it, that is said
without the free value; `dacFits_iff` shows it is the test of R107. -/
def dacFits (p : Params) (v : F64) (o : Int) : Bool :=
  if dacHigh p v o < intMin p || intMax p < dacLow p v o then false
  else if intMin p ≤ dacLow p v o && dacHigh p v o ≤ intMax p then true
  else intMin p ≤ dacEval p v o && dacEval p v o ≤ intMax p

/-- The exponent `10 + o` lies between `E_MIN` and `E_MAX` (R107). -/
def dacExponentOk (p : Params) (o : Int) : Bool :=
  p.eMin ≤ Config.dacExp0 + o && Config.dacExp0 + o ≤ p.eMax

/-! ## Packing (R75) -/

/-- `{bits_4(o), bits_10(d), bits_2(c)}`. -/
def packWord (o d c : Int) : Word16 := bitsOf 4 o ++ bitsOf 10 d ++ bitsOf 2 c

end Sys2Proof.Machine
end

