-- ==== Sys2Proof/Machine/Encoder.lean ====
section
/-! DEFINITION. The meanings of the encoder commands OCTAVE, DAC, PACK and ENCODE (R100, R105, R107, R109,
R111). Each is one atomic step: it writes `RES`, or it raises a fault and writes nothing else. -/

namespace Sys2Proof.Machine

/-- What an encoder command computes from its operands: a value for `RES`, or a fault. -/
inductive EncoderResult where
  | value (v : Word32)
  | raises (k : FaultKind)
  deriving DecidableEq, Repr

/-- Write the result, or raise the fault (R100, R171). -/
def State.finish (s : State) : EncoderResult → State
  | .value v => s.writeRes v
  | .raises k => s.raiseFault k

/-- `classify(F)` and its three cases (R104): a fault, the guard's result, or the result for a frequency in
the modelled range. -/
def byClass (p : Params) (v : F64) (guarded : Word32) (inRange : EncoderResult) : EncoderResult :=
  match classify p v with
  | .raises k => .raises k
  | .nonPos => .value guarded
  | .pos => inRange

/-- OCTAVE's result for `F` = `v` (R105). -/
def octaveResult (p : Params) (v : F64) : EncoderResult :=
  byClass p v 0 (.value (bitsOf 32 (octEval p v)))

/-- DAC's result for `F` = `v` and `sint(X)` = `o` (R107). -/
def dacResult (p : Params) (v : F64) (o : Int) : EncoderResult :=
  byClass p v 0
    (if !dacExponentOk p o then .raises .dacExponentRange
     else if !dacFits p v o then .raises .dacIntRange
     else .value (bitsOf 32 (dacEval p v o)))

/-- PACK's result (R109). -/
def packResult (o d c : Int) : EncoderResult := .value ((packWord o d c).setWidth 32)

/-- The control word of a frequency in the modelled range (R111). -/
def controlWord (p : Params) (v : F64) : Word16 :=
  packWord (octEval p v) (dacEval p v (octEval p v)) Config.cnfFixed

/-- ENCODE's result for `F` = `v` (R111). -/
def encodeResult (p : Params) (v : F64) : EncoderResult :=
  byClass p v ((packWord 0 0 Config.cnfFixed).setWidth 32) (.value ((controlWord p v).setWidth 32))

/-- OCTAVE (R105). -/
def execOctave (s : State) : Host.Outcome State Fault Refusal :=
  accept s fun s => s.finish (octaveResult s.params s.f)

/-- DAC (R107). -/
def execDac (s : State) : Host.Outcome State Fault Refusal :=
  accept s fun s => s.finish (dacResult s.params s.f s.octaveOperand)

/-- PACK (R109). -/
def execPack (s : State) : Host.Outcome State Fault Refusal :=
  accept s fun s => s.finish (packResult (sint s.x) (sint s.y) (sint s.z))

/-- ENCODE (R111). -/
def execEncode (s : State) : Host.Outcome State Fault Refusal :=
  accept s fun s => s.finish (encodeResult s.params s.f)

end Sys2Proof.Machine
end

