-- ==== Sys2Proof/Machine/Transmitter.lean ====
section
/-! DEFINITION. The meaning of SEND and the transmitter's sequencer (R140 to R149): one line write or one wait
exit per step. -/

namespace Sys2Proof.Machine

/-- The word is latched and the sequence begins (R140); `RES` is not written. -/
def State.beginSend (s : State) : State := { s with txWord := s.wordOperand, txPhase := .opening }

/-- SEND (R140). -/
def execSend (s : State) : Host.Outcome State Fault Refusal :=
  accept s State.beginSend

/-- What a phase does (R31, R141). -/
inductive TxAction where
  /-- No action: `Idle`. -/
  | none
  /-- `line L <- b`. -/
  | drive (l : Line) (b : Level)
  /-- `wait(t)`. -/
  | wait (t : Nat)
  deriving DecidableEq, Repr

/-- The bit `TX_WORD[TX_BIT]`. -/
def State.txDataBit (s : State) : Level := s.txWord.getLsbD s.txBit.toNat

/-- The action of the current phase (R141). -/
def State.txAction (s : State) : TxAction :=
  match s.txPhase with
  | .idle => .none
  | .opening => .drive .ceN false
  | .openClk => .drive .clk false
  | .settle0 => .wait Config.tSettle
  | .bitData => .drive .data s.txDataBit
  | .bitRise => .drive .clk true
  | .bitHigh => .wait Config.tSettle
  | .bitFall => .drive .clk false
  | .bitLow => .wait Config.tSettle
  | .closing => .drive .ceN true
  | .finalWait => .wait Config.tFinal

/-- The phase after the current one and the bit index it carries (R141). `explicitClkLow` decides whether
`OpenClk` exists (R149). -/
def txSuccessor (explicitClkLow : Bool) (p : Phase) (bit : BitVec 4) : Phase × BitVec 4 :=
  match p with
  | .idle => (.idle, bit)
  | .opening => (if explicitClkLow then .openClk else .settle0, bit)
  | .openClk => (.settle0, bit)
  | .settle0 => (.bitData, 15)
  | .bitData => (.bitRise, bit)
  | .bitRise => (.bitHigh, bit)
  | .bitHigh => (.bitFall, bit)
  | .bitFall => (.bitLow, bit)
  | .bitLow => if bit = 0 then (.closing, bit) else (.bitData, bit - 1)
  | .closing => (.finalWait, bit)
  | .finalWait => (.idle, bit)

/-- The phases that wait; entering one records `TX_T0` (R142). -/
def Phase.waits : Phase → Bool
  | .settle0 | .bitHigh | .bitLow | .finalWait => true
  | .idle | .opening | .openClk | .bitData | .bitRise | .bitFall | .closing => false

/-- The transmitter enters a phase (R142). -/
def State.enter (s : State) (p : Phase) (bit : BitVec 4) : State :=
  { s with txPhase := p, txBit := bit, txT0 := if p.waits then s.now else s.txT0 }

/-- The transmitter's next step is enabled: always for a line write, for a wait from `TX_T0 + T` on, never
in `Idle` (R142). -/
def State.txEnabled (s : State) : Bool :=
  match s.txAction with
  | .none => false
  | .drive _ _ => true
  | .wait t => s.txT0 + t ≤ s.now

/-- The effect of the current phase's action on the lines (R55); the exit of a wait writes none. -/
def State.txDrive (s : State) : State :=
  match s.txAction with
  | .drive l b => s.writeLine l b
  | .none | .wait _ => s

/-- One step of the transmitter (R141, R142, R149). -/
def State.txStep (s : State) : State :=
  let next := txSuccessor s.params.explicitClkLow s.txPhase s.txBit
  s.txDrive.enter next.1 next.2

end Sys2Proof.Machine
end

