-- ==== Sys2Proof/Machine/Dispatch.lean ====
section
/-! DEFINITION. One arm per command, each one direct call of its meaning. -/

namespace Sys2Proof.Machine

def exec (i : Instr) (s : State) : Host.Outcome State Fault Refusal :=
  match i with
  | .octave => Sys2Proof.Machine.execOctave s
  | .dac => Sys2Proof.Machine.execDac s
  | .pack => Sys2Proof.Machine.execPack s
  | .encode => Sys2Proof.Machine.execEncode s
  | .send => Sys2Proof.Machine.execSend s

end Sys2Proof.Machine
end

