-- ==== Sys2Proof/Machine/HostPort.lean ====
section
/-! DEFINITION. The host's moves (R21 to R25, R30, R63, R190, R206), and the electrical levels of its two enable
lines (D25). -/

namespace Sys2Proof.Machine

/-- The logical value the host writes to one of its lines (R30). -/
def hostLine (on : Bool) : HostLine := if on then .enabled else .disabled

/-- One move of the host. Reading `RES` while it is `Unwritten` is a fault of the reading program (R25). -/
def hostMove (a : HostMove) (s : State) : Host.Outcome State Fault Refusal :=
  match a with
  | .setF v => .next { s with f := v }
  | .setInt p v => .next (s.setIntPort v p)
  | .copyRes p =>
    match s.res with
    | some v => .next (s.setIntPort v p)
    | none => .fault .resUnwritten
  | .present c => .next (s.presentCommand c)
  | .setOscOe on => .next { s with oscOe := hostLine on }
  | .setDrvEn on => .next { s with drvEn := hostLine on }
  | .assertReset => .next s.assertReset
  | .releaseReset => .next s.releaseReset

/-- The host may issue its next command: the last one was accepted and has completed (R206). -/
def State.lastCompleted (s : State) : Bool := s.canAccept && !s.presented

/-- The electrical level of an enable line whose enabling level is `active`; none is known before the host
writes the line (R30, R193). -/
def HostLine.electrical (active : Level) : HostLine → Option Level
  | .unwritten => none
  | .disabled => some (!active)
  | .enabled => some active

/-- The level on the oscillator output enable line. -/
def State.oscOeLevel (s : State) : Option Level := s.oscOe.electrical Config.oscOeActive

/-- The level on the downstream driver enable line. -/
def State.drvEnLevel (s : State) : Option Level := s.drvEn.electrical Config.drvEnActive

end Sys2Proof.Machine
end

