-- ==== Sys2Proof/Machine/Agents.lean ====
section
/-! DEFINITION. Which agent moves in a step, and its move (R20, R26, R142, R178, R180; log 1, log 2). -/

namespace Sys2Proof.Machine

/-- The command unit's step where it can accept: read `CMD`, decode it, execute it (R26, R57, R72). -/
def acceptCommand (s : State) : Host.Outcome State Fault Refusal :=
  match decode s.cmd with
  | .command i => exec i s
  | .reserved _ => accept s fun s => s.raiseFault .illegalCommand

/-- One of the block's two units has a step enabled: the command unit only in `Idle` and the transmitter
only outside it (R178), neither while reset is asserted (R190). -/
def State.blockEnabled (s : State) : Bool :=
  if s.resetIn then false
  else if s.txPhase = .idle then s.canAccept && s.presented
  else s.txEnabled

/-- The block's step, by the unit whose turn it is (R178). -/
def blockStep (s : State) : Host.Outcome State Fault Refusal :=
  if s.txPhase = .idle then acceptCommand s else .next s.txStep

/-- The block's step where it has one, else nothing. -/
def letBlock (s : State) : Host.Outcome State Fault Refusal :=
  if s.blockEnabled then blockStep s else .next s

/-- The host's turn: its next pending act; a host that must wait does nothing (R206, R208). -/
def hostTurn (s : State) : Host.Outcome State Fault Refusal :=
  match s.pending with
  | [] => .next s
  | .awaitReady :: _ => if s.lastCompleted then .next s.popPending else .next s
  | .move a :: _ => hostMove a s.popPending

/-- One agent's turn. -/
def takeTurn (w : Turn) (s : State) : Host.Outcome State Fault Refusal :=
  match w with
  | .block => letBlock s
  | .host => hostTurn s
  | .time dt => .next (s.advance dt)

/-- One step of the system: the first listed turn, and the block's where none is listed (log 2). -/
def systemStep (s : State) : Host.Outcome State Fault Refusal :=
  takeTurn (s.turns.headD .block) s.popTurn

end Sys2Proof.Machine
end

