-- ==== Sys2Proof/Machine/Step.lean ====
section
/-! DEFINITION. The step of the machine, and how the host places a command for the next step. -/

namespace Sys2Proof.Machine

/-- One step (`systemStep`). -/
def step (s : State) : Host.Outcome State Fault Refusal := systemStep s

/-- `s` with the command word `w` presented on `CMD`, in a block that accepts it at the next step (log 20,
log 25). The bits at or above `nbits` are 0. -/
def State.withFetchWord (s : State) (nbits w : Nat) : State :=
  s.placeCommand (BitVec.ofNat 32 (w % 2 ^ nbits))

end Sys2Proof.Machine
end

