-- ==== Sys2Proof/Admitted.lean ====
section
/-! DEFINITION. The spec's real-valued side, for claims only: the value of a binary64 pattern (R11, R53), the
exact values of R101 and R102, and the sets of results they and R103 admit. No step computes with these;
`Machine/Evaluate.lean` is integer arithmetic. -/

namespace Sys2Proof.Admitted

open Sys2Proof.Machine

/-- `val(a)` of a finite binary64 pattern (R11, R53, G1); -0 has value 0. -/
noncomputable def val (a : F64) : ℝ :=
  (if f64Sign a then -1 else 1) *
    (if f64Exponent a = 0 then (f64Fraction a : ℝ) * 2 ^ (-1074 : ℤ)
     else (2 ^ 52 + f64Fraction a : ℝ) * 2 ^ ((f64Exponent a : ℤ) - 1075))

/-- A finite pattern: neither infinity nor NaN. -/
def isFinite (a : F64) : Prop := f64Exponent a < f64ExponentMax

/-- v(f) of R101: `3.322 * log10(f / 1039)`. -/
noncomputable def octExact (f : ℝ) : ℝ := 3322 / 1000 * Real.logb 10 (f / 1039)

/-- The value of a rational. -/
noncomputable def ratio (e : Ratio) : ℝ := (e.num : ℝ) / e.den

/-- OctSet(f) of R101, narrowed by R103 (a). -/
def octSet (p : Params) (f : ℝ) : Set ℤ :=
  {n | if f = 1039 then n = 0
    else ∃ y : ℝ, |y - octExact f| ≤ ratio p.epsOct * max 1 |octExact f| ∧ ⌊y⌋ = n}

/-- `trunc0(x)` of R12. -/
noncomputable def trunc0 (x : ℝ) : ℤ := if 0 ≤ x then ⌊x⌋ else -⌊-x⌋

/-- x(f, o) of R102: `2048 - 2078 * 2^(10 + o) / f`. -/
noncomputable def dacExactValue (f : ℝ) (o : ℤ) : ℝ := 2048 - 2078 * (2 : ℝ) ^ (10 + o) / f

/-- DacSet(f, o) of R102, narrowed by R103 (b). -/
def dacSet (p : Params) (f : ℝ) (o : ℤ) : Set ℤ :=
  {d | (d : ℝ) = dacExactValue f o ∨
    (∀ k : ℤ, (k : ℝ) ≠ dacExactValue f o) ∧
      ∃ y : ℝ, |y - dacExactValue f o| ≤ ratio p.epsDac * max 1 |dacExactValue f o| ∧
        trunc0 y = d}

end Sys2Proof.Admitted
end

