-- ==== Sys2Proof/Machine/Assembler.lean ====
section
/-! DEFINITION. The host's acts a line of the command syntax stands for (R80 to R82), and the startup sequence
(R195). -/

namespace Sys2Proof.Machine

/-- Set an integer port from a literal; `RES` copies the result port (R80). -/
def setIntMove (p : IntPort) : IntLit → HostMove
  | .dec v => .setInt p (bitsOf 32 v)
  | .hex v => .setInt p (BitVec.ofNat 32 v)
  | .res => .copyRes p

/-- Set the ports, then present the command; the host issues a command only when the last one has completed
(R206, 95_test_vectors.md L3). -/
def issue (ports : List HostMove) (i : Instr) : List HostAct :=
  .awaitReady :: (ports ++ [HostMove.present (encode i)]).map HostAct.move

/-- The host's acts of one line (R80); `SETFREQ f` is `ENCODE f` then `SEND RES` (R81). -/
def assemble : AsmCmd → List HostAct
  | .octave f => issue [.setF f.pattern] .octave
  | .dac f o => issue [.setF f.pattern, setIntMove .x o] .dac
  | .pack o d c => issue [setIntMove .x o, setIntMove .y d, setIntMove .z c] .pack
  | .encode f => issue [.setF f.pattern] .encode
  | .send w => issue [setIntMove .x w] .send
  | .setFreq f => issue [.setF f.pattern] .encode ++ issue [.copyRes .x] .send

/-- A program: its lines one after another, and the host waiting for the last one. -/
def assembleProgram (p : List AsmCmd) : List HostAct := p.flatMap assemble ++ [.awaitReady]

/-- 1000 Hz, the initial frequency of R195. -/
def startupFreq : FreqLit := .dec false 1000 0

/-- The host's startup sequence, steps 1 to 5 (R195). -/
def startupSequence : List HostAct :=
  [.move (.setDrvEn false), .move (.setOscOe false)] ++
    assembleProgram [.setFreq startupFreq] ++
    [.move (.setOscOe true), .move (.setDrvEn true)]

end Sys2Proof.Machine
end

