-- ==== Sys2Proof/Machine/Receiver.lean ====
section
/-! DEFINITION. The receiver as an observer of the line history (R160 to R162): what it sampled in each
transaction, and the word it received. It is no part of the state: nothing in the block reads it. -/

namespace Sys2Proof.Machine

/-- What the receiver knows after part of a line history. -/
structure RxView where
  /-- The levels it sees on the three lines. -/
  data : Level
  clk : Level
  ceN : Level
  /-- The samples of the open transaction, first one first; `none` where none is open. -/
  current : Option (List Level)
  /-- The samples of each closed transaction, first transaction first. -/
  closed : List (List Level)
  deriving DecidableEq, Repr

/-- Before any event: the lines at their reset levels, no transaction seen (log 18). -/
def RxView.initial : RxView where
  data := State.reset.data
  clk := State.reset.clk
  ceN := State.reset.ceN
  current := none
  closed := []

/-- One event: `CE_N` falling opens a transaction and rising closes it (R161); `CLK` rising while
`CE_N = 0` samples `DATA` (R160). -/
def RxView.observe (r : RxView) (e : LineEvent) : RxView :=
  match e.line with
  | .data => { r with data := e.level }
  | .clk =>
    if !r.clk && e.level && !r.ceN then
      { r with clk := e.level, current := r.current.map (· ++ [r.data]) }
    else { r with clk := e.level }
  | .ceN =>
    if r.ceN && !e.level then { r with ceN := e.level, current := some [] }
    else if !r.ceN && e.level then
      { r with ceN := e.level, current := none, closed := r.closed ++ r.current.toList }
    else { r with ceN := e.level }

/-- What the receiver knows after a line history. -/
def receive (h : List LineEvent) : RxView := h.foldl RxView.observe RxView.initial

/-- The bits of a word, bit 15 first (R77). -/
def msbFirst (w : Word16) : List Level :=
  [w.getLsbD 15, w.getLsbD 14, w.getLsbD 13, w.getLsbD 12, w.getLsbD 11, w.getLsbD 10,
   w.getLsbD 9, w.getLsbD 8, w.getLsbD 7, w.getLsbD 6, w.getLsbD 5, w.getLsbD 4,
   w.getLsbD 3, w.getLsbD 2, w.getLsbD 1, w.getLsbD 0]

/-- The word of a transaction's samples, first sample the most significant bit; only 16 samples make a
word (R161). -/
def receivedWord (samples : List Level) : Option Word16 :=
  if samples.length = 16 then
    some (samples.foldl (fun w b => w <<< 1 ||| (BitVec.ofBool b).setWidth 16) 0)
  else none

/-- The words of the closed transactions; `none` for one that is no word. -/
def receivedWords (h : List LineEvent) : List (Option Word16) :=
  (receive h).closed.map receivedWord

/-! ## The write trace (R151) -/

/-- A line event without its time. -/
def LineEvent.write (e : LineEvent) : Line × Level := (e.line, e.level)

/-- The triple of one bit. -/
def bitTrace (b : Level) : List (Line × Level) := [(.data, b), (.clk, true), (.clk, false)]

/-- The write trace of a SEND of `w` (R151). -/
def sendTrace (explicitClkLow : Bool) (w : Word16) : List (Line × Level) :=
  [(.ceN, false)] ++ (if explicitClkLow then [(.clk, false)] else []) ++
    (msbFirst w).flatMap bitTrace ++ [(.ceN, true)]

end Sys2Proof.Machine
end

