-- ==== Sys2Proof/Safety.lean ====
section
/-! DEFINITION. What claims use: the machine's invariant, the progress of a SEND, the stuck state, and the
host's duties, which the machine does not enforce (log 19). -/

namespace Sys2Proof.Machine

/-! ## The invariant -/

/-- The level of `CE_N` in each phase: 0 from the step after `Open` to `Close` (R39, R141, R157). -/
def Phase.ceN : Phase → Level
  | .idle | .opening | .finalWait => true
  | .openClk | .settle0 | .bitData | .bitRise | .bitHigh | .bitFall | .bitLow | .closing => false

/-- The level of `CLK` in each phase: 1 from `BitRise`'s step to `BitFall`'s (R39, R141). -/
def Phase.clk : Phase → Level
  | .bitHigh | .bitFall => true
  | .idle | .opening | .openClk | .settle0 | .bitData | .bitRise | .bitLow | .closing
  | .finalWait => false

/-- The phases in which `DATA` holds the bit of the index (R145, R157). -/
def Phase.holdsBit : Phase → Bool
  | .bitRise | .bitHigh | .bitFall | .bitLow => true
  | .idle | .opening | .openClk | .settle0 | .bitData | .closing | .finalWait => false

/-- The phases that follow a settle wait and write a line (R141). -/
def Phase.afterSettle : Phase → Bool
  | .bitData | .bitFall | .closing => true
  | .idle | .opening | .openClk | .settle0 | .bitRise | .bitHigh | .bitLow | .finalWait => false

/-- The time of the last event of a line history. -/
def lastTime (h : List LineEvent) : Option Nat := h.getLast?.map LineEvent.time

/-- What holds at reset and is kept by every step. -/
structure State.Inv (s : State) : Prop where
  /-- `OpenClk` is a phase only with `EXPLICIT_CLK_LOW` (R31, R149). -/
  openClk : s.txPhase = .openClk → s.params.explicitClkLow = true
  /-- The levels of `CE_N` and `CLK` are those of the phase; in `Idle` this is R39. -/
  lines : s.ceN = s.txPhase.ceN ∧ s.clk = s.txPhase.clk
  /-- `DATA` is stable while its bit is clocked (R157). -/
  dataHeld : s.txPhase.holdsBit = true → s.data = s.txDataBit
  /-- A faulted block is idle (R171). -/
  faultIdle : s.fault ≠ none → s.txPhase = .idle
  /-- A block in reset is idle and unfaulted (R190). -/
  resetIdle : s.resetIn = true → s.txPhase = .idle ∧ s.fault = none
  /-- A wait was entered at the last event's time (R142). -/
  waitEntry : s.txPhase.waits = true → lastTime s.history = some s.txT0
  /-- After a settle wait, at least `T_SETTLE` has passed since the last event (R142, R152). -/
  settled : s.txPhase.afterSettle = true →
    lastTime s.history = some s.txT0 ∧ s.txT0 + Config.tSettle ≤ s.now
  /-- The time stamps do not decrease (R58). -/
  stampsOrdered : s.history.Pairwise (fun a b => a.time ≤ b.time)
  /-- No event is stamped in the future (R55, R180). -/
  stampsPast : ∀ e ∈ s.history, e.time ≤ s.now
  /-- The line history gives the levels of the lines (R55). -/
  historyLevels : (receive s.history).data = s.data ∧ (receive s.history).clk = s.clk ∧
    (receive s.history).ceN = s.ceN

/-! ## The progress of a SEND -/

/-- How many events of its write trace a SEND has made when its phase and bit index are these (R141,
R151). -/
def writesMade (explicitClkLow : Bool) (p : Phase) (bit : BitVec 4) : Nat :=
  let opened := if explicitClkLow then 2 else 1
  let bits := opened + 3 * (15 - bit.toNat)
  match p with
  | .idle => 0
  | .opening => 0
  | .openClk => 1
  | .settle0 => opened
  | .bitData => bits
  | .bitRise => bits + 1
  | .bitHigh => bits + 2
  | .bitFall => bits + 2
  | .bitLow => bits + 3
  | .closing => opened + 48
  | .finalWait => opened + 49

/-- A SEND of `w` is in progress, in a phase that exists for the machine's parameters (R31), and since the write
trace `before` it has made exactly the events its phase says (R151). -/
def State.sending (s : State) (before : List (Line × Level)) (w : Word16) : Prop :=
  s.txPhase ≠ .idle ∧ (s.txPhase = .openClk → s.params.explicitClkLow = true) ∧ s.txWord = w ∧
    s.history.map LineEvent.write =
      before ++ (sendTrace s.params.explicitClkLow w).take
        (writesMade s.params.explicitClkLow s.txPhase s.txBit)

/-- The least time a SEND has lasted when it makes the step of a phase that writes, and when it enters a phase that
waits (R152, R153). -/
def leastElapsed (p : Phase) (bit : BitVec 4) : Nat :=
  let bits := 1 + 2 * (15 - bit.toNat)
  match p with
  | .idle | .opening | .openClk | .settle0 => 0
  | .bitData | .bitRise | .bitHigh => bits
  | .bitFall | .bitLow => bits + 1
  | .closing | .finalWait => 33

/-- A SEND accepted at time `start` is in progress, and it has lasted at least what its phase says (R153). -/
def State.sendingSince (s : State) (start : Nat) : Prop :=
  s.txPhase ≠ .idle ∧
    start + leastElapsed s.txPhase s.txBit ≤ (if s.txPhase.waits then s.txT0 else s.now)

/-- The write trace of a history. -/
def writes (h : List LineEvent) : List (Line × Level) := h.map LineEvent.write

/-- The coming step is the host asserting reset. -/
def State.resetNext (s : State) : Bool := s.nextHostMove == some .assertReset

/-! ## Schedules (log 1) -/

/-- The time base's advance in a turn. -/
def Turn.duration : Turn → Nat
  | .block | .host => 0
  | .time dt => dt

/-- The first `n` turns of an endless schedule. -/
def firstTurns (schedule : Nat → Turn) (n : Nat) : List Turn := (List.range n).map schedule

/-- The fairness assumption of R214: time advances without bound. The block is an agent too, and fairness to it is
that it gets a turn again and again. -/
structure Fair (schedule : Nat → Turn) : Prop where
  /-- Time advances without bound. -/
  time : ∀ bound, ∃ n, bound ≤ ((firstTurns schedule n).map Turn.duration).sum
  /-- After any number of turns the block has one again. -/
  block : ∀ n, ∃ m, n ≤ m ∧ schedule m = .block

/-- Nothing the host has pending asserts reset or reads an `Unwritten` `RES`. -/
def State.hostIsHarmless (s : State) : Prop :=
  HostAct.move .assertReset ∉ s.pending ∧
    (s.res = none → ∀ p, HostAct.move (.copyRes p) ∉ s.pending)

/-- The time base advances by the minimum of a wait, and the block leaves the wait. -/
def waitTurns (t : Nat) : List Turn := [.time t, .block]

/-- The turns of one bit: two line writes, a wait, a line write, a wait (R145). -/
def bitTurns : List Turn :=
  [.block, .block] ++ waitTurns Config.tSettle ++ [.block] ++ waitTurns Config.tSettle

/-- A schedule that takes a presented SEND to its completion in the least time: every wait ends at its minimum, and
no line write is delayed (R153). -/
def eagerTurns (explicitClkLow : Bool) : List Turn :=
  [.block, .block] ++ (if explicitClkLow then [.block] else []) ++ waitTurns Config.tSettle ++
    (List.replicate 16 bitTurns).flatten ++ [.block] ++ waitTurns Config.tFinal

/-! ## Stuck, and the host's duties -/

/-- The block is stuck until reset (R171). -/
def State.stuck (s : State) : Bool := s.fault != none

/-- The presented command reads a port (R24); a reserved word reads none. -/
def State.presentedReads (s : State) (reads : Instr → Bool) : Bool :=
  s.presented &&
    match decode s.cmd with
    | .command i => reads i
    | .reserved _ => false

/-- A host move that keeps the host's duties: `CMD` and the ports in use stay stable until acceptance (R63,
R206, R208), `RES` is read only when written (R25), the enable lines are written while `READY` (R206), and
reset is not asserted during a SEND (R191, R206). -/
def dutyKept (a : HostMove) (s : State) : Bool :=
  match a with
  | .setF _ => !s.presentedReads readsF
  | .setInt p _ => !s.presentedReads (readsInt · p)
  | .copyRes p => s.res.isSome && !s.presentedReads (readsInt · p)
  | .present _ => !s.presented
  | .setOscOe _ | .setDrvEn _ => s.ready
  | .assertReset => s.txPhase == .idle
  | .releaseReset => true

end Sys2Proof.Machine
end

