-- ==== Sys2Proof/Certificates/Slice0/Obligations.lean ====
section
/-! DEFINITION. The statements for the provers. Each docstring names the rule of spec/ it formalises; where a
clause rests on a choice of the model, it names the log entry. -/

open Sys2Proof Sys2Proof.Machine Sys2Proof.Admitted

/-! ## Encoding -/

/-- R70, R71: a command's word decodes to the command. -/
def Obligations.DecodeInvertsEncode : Prop := ∀ i : Instr, decode (encode i) = .command i

/-- R70 to R72: no other word decodes to a command. -/
def Obligations.OnlyTheFiveWordsAreCommands : Prop :=
  ∀ (c : Word32) (i : Instr), decode c = .command i ↔ c = encode i

/-- R71: the words of the table, and reserved ones beside them (95_test_vectors.md L2.5). -/
def Obligations.TableWordsDecode : Prop :=
  decode 0x00000000 = .command .octave ∧ decode 0x00000001 = .command .dac ∧
    decode 0x00000002 = .command .pack ∧ decode 0x00000003 = .command .encode ∧
    decode 0x00000004 = .command .send ∧ decode 0x00000005 = .reserved .reservedOp ∧
    decode 0x00000007 = .reserved .reservedOp ∧ decode 0x00000008 = .reserved .reservedBits ∧
    decode 0x80000004 = .reserved .reservedBits

/-- R72, R78: the words with `rsv ≠ 0` or `op` 5, 6, 7 are the reserved ones, and accepting one raises
`IllegalCommand` (R171, R173): the rest of the state stays, but for whether a command is still presented (log 15).
That a step with no turn listed is the block's is the model's schedule (log 1, log 2). -/
def Obligations.ReservedWordsRaiseIllegalCommand : Prop :=
  ∀ c : Word32,
    ((∃ why, decode c = .reserved why) ↔ c.toNat / 8 ≠ 0 ∨ c.toNat % 8 ∈ [5, 6, 7]) ∧
    ∀ s : State, s.canAccept = true → s.presented = true → s.cmd = c → s.turns = [] →
      (c.toNat / 8 ≠ 0 ∨ c.toNat % 8 ∈ [5, 6, 7]) →
        ∃ t, step s = .next t ∧ t.fault = some .illegalCommand ∧
          { t with presented := s.presented, fault := s.fault } = s

/-! ## From the step to the commands -/

/-- R26, R57 (schedule: log 1, log 2): where the turn is the block's and it can accept, the step executes the
decoded command, with the turn used up; where no turn is listed, it is the block's. -/
def Obligations.StepRunsTheDecodedCommand : Prop :=
  ∀ (s : State) (i : Instr), s.canAccept = true → s.presented = true →
    decode s.cmd = .command i →
      (s.turns = [] → step s = exec i s) ∧
      (∀ rest, s.turns = .block :: rest → step s = exec i { s with turns := rest })

/-- Log 20, log 25: a placed command word is what the next step executes. -/
def Obligations.PlacedCommandRunsNext : Prop :=
  ∀ (s : State) (i : Instr),
    step (s.withFetchWord 32 (encode i).toNat) = exec i (s.withFetchWord 32 (encode i).toNat) ∧
      (s.withFetchWord 32 (encode i).toNat).cmd = encode i ∧
      (s.withFetchWord 32 (encode i).toNat).canAccept = true

/-- R26, R148, R155 (log 16): a command given to a block that cannot accept one changes nothing. -/
def Obligations.CommandIsNotExecutedUnlessAccepted : Prop :=
  ∀ (i : Instr) (s : State), s.canAccept = false → exec i s = .next s

/-- R26, R155, R156, R179: a command presented to a block that cannot accept is held: it stays presented,
with the same word, through every step in which the host does not act. -/
def Obligations.PresentedCommandIsHeld : Prop :=
  ∀ s t : State, s.canAccept = false → s.presented = true →
    s.nextHostMove = none → step s = .next t →
      t.presented = true ∧ t.cmd = s.cmd ∧ t.res = s.res ∧ t.fault = s.fault

/-! ## The encoder commands -/

/-- R105: OCTAVE; the command is taken (log 15). -/
def Obligations.OctaveResult : Prop :=
  ∀ s : State, s.canAccept = true →
    (∀ k, classify s.params s.f = .raises k →
      exec .octave s = .next { s with presented := false, fault := some k }) ∧
    (classify s.params s.f = .nonPos →
      exec .octave s = .next { s with presented := false, res := some 0 }) ∧
    (classify s.params s.f = .pos →
      exec .octave s = .next
        { s with presented := false, res := some (bitsOf 32 (octEval s.params s.f)) })

/-- R107, for the machine's `E_MIN`, `E_MAX` and `W_INT` (R9): DAC, with the faults in the order of R174; a
non-positive frequency ends the checks, and the command is taken (log 15). -/
def Obligations.DacResult : Prop :=
  ∀ s : State, s.canAccept = true →
    (∀ k, classify s.params s.f = .raises k →
      exec .dac s = .next { s with presented := false, fault := some k }) ∧
    (classify s.params s.f = .nonPos →
      exec .dac s = .next { s with presented := false, res := some 0 }) ∧
    (classify s.params s.f = .pos →
      (10 + s.x.toInt < s.params.eMin ∨ s.params.eMax < 10 + s.x.toInt) →
      exec .dac s = .next { s with presented := false, fault := some .dacExponentRange }) ∧
    (classify s.params s.f = .pos → s.params.eMin ≤ 10 + s.x.toInt →
      10 + s.x.toInt ≤ s.params.eMax →
      (dacEval s.params s.f s.x.toInt < -2 ^ (s.params.wInt - 1) ∨
        2 ^ (s.params.wInt - 1) - 1 < dacEval s.params s.f s.x.toInt) →
      exec .dac s = .next { s with presented := false, fault := some .dacIntRange }) ∧
    (classify s.params s.f = .pos → s.params.eMin ≤ 10 + s.x.toInt →
      10 + s.x.toInt ≤ s.params.eMax →
      -2 ^ (s.params.wInt - 1) ≤ dacEval s.params s.f s.x.toInt →
      dacEval s.params s.f s.x.toInt ≤ 2 ^ (s.params.wInt - 1) - 1 →
      exec .dac s = .next
        { s with presented := false, res := some (bitsOf 32 (dacEval s.params s.f s.x.toInt)) })

/-- R109: PACK writes `(X[3:0] << 12) | (Y[9:0] << 2) | Z[1:0]`, zero-extended, for every operand, and nothing
else but whether a command is still presented (log 15). -/
def Obligations.PackResult : Prop :=
  ∀ s : State, s.canAccept = true → ∃ (w : Word32) (t : State),
    w.toNat = s.x.toNat % 16 * 4096 + s.y.toNat % 1024 * 4 + s.z.toNat % 4 ∧
      exec .pack s = .next t ∧ t.res = some w ∧
        { t with presented := s.presented, res := s.res } = s

/-- R111: ENCODE; the word is packed from the octave and the DAC value of that octave, `CNF = 0`; the command is
taken (log 15). -/
def Obligations.EncodeResult : Prop :=
  ∀ s : State, s.canAccept = true →
    (∀ k, classify s.params s.f = .raises k →
      exec .encode s = .next { s with presented := false, fault := some k }) ∧
    (classify s.params s.f = .nonPos →
      exec .encode s = .next { s with presented := false, res := some 0 }) ∧
    (classify s.params s.f = .pos → ∃ w : Word32,
      (w.toNat : ℤ) = octEval s.params s.f % 16 * 4096 +
          dacEval s.params s.f (octEval s.params s.f) % 1024 * 4 ∧
        exec .encode s = .next { s with presented := false, res := some w })

/-- R104, R9: the classes of a frequency by its real value, for any modelled range. -/
def Obligations.ClassifyByValue : Prop :=
  ∀ (p : Params) (a : F64), admissible p = true →
    (classify p a = .raises .freqNaN ↔ f64Exponent a = 2047 ∧ f64Fraction a ≠ 0) ∧
    (classify p a = .raises .freqPosInf ↔ a = 0x7FF0000000000000) ∧
    (classify p a = .nonPos ↔ a = 0xFFF0000000000000 ∨ isFinite a ∧ val a ≤ 0) ∧
    (classify p a = .raises .freqOutOfModelledRange ↔
      isFinite a ∧ 0 < val a ∧ (val a < val p.fModelLo ∨ val p.fModelHi < val a)) ∧
    (classify p a = .pos ↔ isFinite a ∧ val p.fModelLo ≤ val a ∧ val a ≤ val p.fModelHi)

/-- R101: `octEval(F)` lies in `OctSet(val(F))`, whatever the free value is, for every `EPS_OCT` of at least
2^-90; `AdmittedOctavesAreTheInterval` has the narrower ones, 0 among them. -/
def Obligations.OctEvalIsAdmitted : Prop :=
  ∀ (p : Params) (a : F64), admissible p = true → (2 : ℝ) ^ (-90 : ℤ) ≤ ratio p.epsOct →
    classify p a = .pos → octEval p a ∈ octSet p (val a)

/-- R102: `dacEval(F, o)` lies in `DacSet(val(F), o)`, whatever the free value is, for every `EPS_DAC`. -/
def Obligations.DacEvalIsAdmitted : Prop :=
  ∀ (p : Params) (a : F64) (o : ℤ), admissible p = true → classify p a = .pos →
    p.eMin ≤ 10 + o → 10 + o ≤ p.eMax → dacEval p a o ∈ dacSet p (val a) o

/-- R101, R103: no admitted octave is left out, and none is added: where the enclosure settles the ends of the set
(log 5), the octaves `octEval` can take are exactly those admitted, for every `EPS_OCT`, 0 included. -/
def Obligations.AdmittedOctavesAreTheInterval : Prop :=
  ∀ (p : Params) (a : F64), admissible p = true → classify p a = .pos → octDecided p a = true →
    (∀ n : ℤ, n ∈ octSet p (val a) ↔ octLow p a ≤ n ∧ n ≤ octHigh p a) ∧
      octEval p a ∈ octSet p (val a)

/-- R102, R103: no admitted DAC value is left out, and none is added, for every `EPS_DAC`. -/
def Obligations.AdmittedDacValuesAreTheInterval : Prop :=
  ∀ (p : Params) (a : F64) (o d : ℤ), admissible p = true → classify p a = .pos →
    (d ∈ dacSet p (val a) o ↔ dacLow p a o ≤ d ∧ d ≤ dacHigh p a o)

/-- R103: the exact cases. -/
def Obligations.ExactCasesHaveOneResult : Prop :=
  (∀ (p : Params) (a : F64), classify p a = .pos → val a = 1039 → octEval p a = 0) ∧
  (∀ (p : Params) (a : F64) (o k : ℤ), classify p a = .pos →
    dacExactValue (val a) o = k → dacEval p a o = k)

/-- R101, R106: outside the band around the integers the octave is the floor of the exact value, for every
`EPS_OCT` of at least 2^-90. -/
def Obligations.OctaveOutsideTheBandIsTheFloor : Prop :=
  ∀ (p : Params) (a : F64), admissible p = true → (2 : ℝ) ^ (-90 : ℤ) ≤ ratio p.epsOct →
    classify p a = .pos →
    (∀ n : ℤ, ratio p.epsOct * max 1 |octExact (val a)| < |octExact (val a) - n|) →
      octEval p a = ⌊octExact (val a)⌋

/-- R105: over the spec's modelled range the octave lies in [-1011, 990]. -/
def Obligations.OctaveRange : Prop :=
  ∀ a : F64, classify .spec a = .pos → -1011 ≤ octEval .spec a ∧ octEval .spec a ≤ 990

/-- R108, R111: over the spec's modelled range ENCODE's DAC value lies in [-30, 1039]. -/
def Obligations.EncodeDacRange : Prop :=
  ∀ a : F64, classify .spec a = .pos →
    -30 ≤ dacEval .spec a (octEval .spec a) ∧ dacEval .spec a (octEval .spec a) ≤ 1039

/-- R113, its DAC clause as R108 corrects it: over the host's frequency range the octave lies in [-1, 7] and
ENCODE's DAC value in [0, 1024], and in [0, 1023] where x(f, -1) is not within the band of 1024. -/
def Obligations.ResultsInTheHostRange : Prop :=
  ∀ a : F64, classify .spec a = .pos → 1000 ≤ val a → val a ≤ 200000 →
    (-1 ≤ octEval .spec a ∧ octEval .spec a ≤ 7) ∧
    (0 ≤ dacEval .spec a (octEval .spec a) ∧ dacEval .spec a (octEval .spec a) ≤ 1024) ∧
    ((2 : ℝ) ^ (-40 : ℤ) * max 1 |dacExactValue (val a) (-1)| < |dacExactValue (val a) (-1) - 1024| →
      dacEval .spec a (octEval .spec a) ≤ 1023)

/-- R111: ENCODE writes the `RES` that OCTAVE, DAC on its result, and PACK on both results write; with the spec's
parameters, because R111 derives from them that DAC does not fault. -/
def Obligations.EncodeEqualsOctaveDacPack : Prop :=
  ∀ s : State, s.canAccept = true → s.params = .spec → (∀ k, classify s.params s.f ≠ .raises k) →
    ∃ (s₁ s₂ s₃ e : State) (o d : Word32),
      exec .octave s = .next s₁ ∧ s₁.res = some o ∧
      exec .dac { s₁ with x := o } = .next s₂ ∧ s₂.res = some d ∧
      exec .pack { s₂ with x := o, y := d, z := 0 } = .next s₃ ∧
      exec .encode s = .next e ∧ s₃.res = e.res

/-- R112: what an encoder command writes depends on its operands alone: on `F` for OCTAVE and ENCODE, on `F`
and `X` for DAC, on `X`, `Y`, `Z` for PACK, in one block (the same parameters). -/
def Obligations.EncoderCommandsArePure : Prop :=
  ∀ s t : State, s.params = t.params → s.canAccept = true → t.canAccept = true →
    (s.f = t.f → ∃ s' t', exec .octave s = .next s' ∧ exec .octave t = .next t' ∧
      s'.fault = t'.fault ∧ (s'.fault = none → s'.res = t'.res ∧ s'.res ≠ none)) ∧
    (s.f = t.f → ∃ s' t', exec .encode s = .next s' ∧ exec .encode t = .next t' ∧
      s'.fault = t'.fault ∧ (s'.fault = none → s'.res = t'.res ∧ s'.res ≠ none)) ∧
    (s.f = t.f → s.x = t.x → ∃ s' t', exec .dac s = .next s' ∧ exec .dac t = .next t' ∧
      s'.fault = t'.fault ∧ (s'.fault = none → s'.res = t'.res ∧ s'.res ≠ none)) ∧
    (s.x = t.x → s.y = t.y → s.z = t.z → ∃ s' t', exec .pack s = .next s' ∧
      exec .pack t = .next t' ∧ s'.res = t'.res ∧ s'.res ≠ none ∧ s'.fault = none)

/-- R36, R56, R100: the frame of OCTAVE, DAC, PACK and ENCODE: `RES` or `FAULT` is written, not both, the
command is taken (log 15), and nothing else in the state changes. -/
def Obligations.EncoderFrame : Prop :=
  ∀ (i : Instr) (s t : State), i ≠ .send → s.canAccept = true → exec i s = .next t →
    t = { s with presented := false, res := t.res, fault := t.fault } ∧
      (t.res = s.res ∧ t.fault ≠ none ∨ t.res ≠ none ∧ t.fault = none)

/-- R76: the fields of a packed word, read back, are the low bits of the integers. -/
def Obligations.PackedFieldsReadBack : Prop :=
  ∀ o d c : ℤ, (((packWord o d c).extractLsb' 12 4).toNat : ℤ) = o % 16 ∧
    (((packWord o d c).extractLsb' 2 10).toNat : ℤ) = d % 1024 ∧
    (((packWord o d c).extractLsb' 0 2).toNat : ℤ) = c % 4

/-- R110: packing masks, it does not clamp, and each field can be recovered from the word. -/
def Obligations.PackingMasks : Prop :=
  (∀ o d c k : ℤ, packWord (o + 16 * k) d c = packWord o d c ∧
    packWord o (d + 1024 * k) c = packWord o d c ∧ packWord o d (c + 4 * k) = packWord o d c) ∧
  ∀ o d c o' d' c' : ℤ, packWord o d c = packWord o' d' c' →
    o % 16 = o' % 16 ∧ d % 1024 = d' % 1024 ∧ c % 4 = c' % 4

/-- R197: the startup word, with the spec's parameters; the command is taken (log 15). -/
def Obligations.ThousandHertzEncodesToFF60 : Prop :=
  ∀ s : State, s.canAccept = true → s.params = .spec → s.f = 0x408F400000000000 →
    exec .encode s = .next { s with presented := false, res := some 0x0000FF60 }

/-! ## The transmitter -/

/-- R140: SEND latches `X[15:0]` and opens the sequence, for every word; the command is taken (log 15), and nothing
else changes. -/
def Obligations.SendLatchesTheWord : Prop :=
  ∀ s : State, s.canAccept = true → ∃ w : Word16, w.toNat = s.x.toNat % 65536 ∧
    exec .send s = .next { s with presented := false, txWord := w, txPhase := .opening }

/-- R141, R142, R145, R149: the block's step in every phase, in both settings of `EXPLICIT_CLK_LOW`; a wait that
has not elapsed changes nothing. That a step with no turn listed is the block's is the model's schedule (log 1,
log 2). -/
def Obligations.SequenceSteps : Prop :=
  ∀ s : State, s.turns = [] → s.resetIn = false →
    (s.txPhase = .opening → step s = .next (if s.params.explicitClkLow
      then { s with
        ceN := false, history := s.history ++ [⟨.ceN, false, s.now⟩], txPhase := .openClk }
      else { s with
        ceN := false, history := s.history ++ [⟨.ceN, false, s.now⟩],
        txPhase := .settle0, txT0 := s.now })) ∧
    (s.txPhase = .openClk → step s = .next { s with
      clk := false, history := s.history ++ [⟨.clk, false, s.now⟩],
      txPhase := .settle0, txT0 := s.now }) ∧
    (s.txPhase = .settle0 → step s = .next (if s.txT0 + 1 ≤ s.now
      then { s with txPhase := .bitData, txBit := 15 } else s)) ∧
    (s.txPhase = .bitData → step s = .next { s with
      data := s.txWord.getLsbD s.txBit.toNat,
      history := s.history ++ [⟨.data, s.txWord.getLsbD s.txBit.toNat, s.now⟩],
      txPhase := .bitRise }) ∧
    (s.txPhase = .bitRise → step s = .next { s with
      clk := true, history := s.history ++ [⟨.clk, true, s.now⟩],
      txPhase := .bitHigh, txT0 := s.now }) ∧
    (s.txPhase = .bitHigh → step s = .next (if s.txT0 + 1 ≤ s.now
      then { s with txPhase := .bitFall } else s)) ∧
    (s.txPhase = .bitFall → step s = .next { s with
      clk := false, history := s.history ++ [⟨.clk, false, s.now⟩],
      txPhase := .bitLow, txT0 := s.now }) ∧
    (s.txPhase = .bitLow → step s = .next (if s.txT0 + 1 ≤ s.now
      then (if s.txBit = 0 then { s with txPhase := .closing }
        else { s with txPhase := .bitData, txBit := s.txBit - 1 })
      else s)) ∧
    (s.txPhase = .closing → step s = .next { s with
      ceN := true, history := s.history ++ [⟨.ceN, true, s.now⟩],
      txPhase := .finalWait, txT0 := s.now }) ∧
    (s.txPhase = .finalWait → step s = .next (if s.txT0 + 10 ≤ s.now
      then { s with txPhase := .idle } else s))

/-- R77: the list of a word's bits that the write trace of a SEND uses has `word[16 - k]` as its k-th element. -/
def Obligations.BitsGoMostSignificantFirst : Prop :=
  ∀ (w : Word16) (k : Nat), 1 ≤ k → k ≤ 16 →
    (msbFirst w)[k - 1]? = some (w.getLsbD (16 - k))

/-- R77, R145, R151: the `DATA` events of a completed SEND, under every schedule: the k-th one is `word[16 - k]`. -/
def Obligations.DataEventsAreMostSignificantFirst : Prop :=
  ∀ (s t : State) (before : List (Line × Level)) (w : Word16),
    s.sending before w → s.resetNext = false → step s = .next t → t.txPhase = .idle →
      ∃ events, writes t.history = before ++ events ∧
        ∀ k, 1 ≤ k → k ≤ 16 →
          ((events.filter (·.1 = .data)).map (·.2))[k - 1]? = some (w.getLsbD (16 - k))

/-- R150, R151, R153: under the schedule that ends every wait at its minimum (a premise, log 1), a SEND completes
in 43 µs with the line events of R151: 50, and 51 with `EXPLICIT_CLK_LOW` (R149; log 9). The command is taken
(log 15). -/
def Obligations.SendCompletes : Prop :=
  ∀ s : State, s.canAccept = true → s.presented = true → s.cmd = encode .send →
    s.turns = eagerTurns s.params.explicitClkLow →
    ∃ events : List LineEvent,
      writes events = sendTrace s.params.explicitClkLow (s.x.extractLsb' 0 16) ∧
      events.length = (if s.params.explicitClkLow then 51 else 50) ∧
      core.run s.turns.length s = .next { s with
        presented := false, txWord := s.x.extractLsb' 0 16, txPhase := .idle, txBit := 0,
        txT0 := s.now + 33, now := s.now + 43, data := s.x.getLsbD 0, clk := false, ceN := true,
        history := s.history ++ events, turns := [] }

/-- R151, R154, R155: under every schedule of host, time base and block, and in both settings of
`EXPLICIT_CLK_LOW`, a SEND in progress has made exactly the events its phase says, until it completes with the
whole trace; only reset ends it otherwise. It begins so at acceptance. -/
def Obligations.SendTraceUnderEverySchedule : Prop :=
  (∀ s t : State, s.canAccept = true → exec .send s = .next t →
    t.sending (writes s.history) (s.x.extractLsb' 0 16)) ∧
  ∀ (s t : State) (before : List (Line × Level)) (w : Word16),
    s.sending before w → s.resetNext = false → step s = .next t →
      t.res = s.res ∧ t.fault = s.fault ∧
      (t.sending before w ∨
        t.txPhase = .idle ∧ t.txWord = w ∧
          writes t.history = before ++ sendTrace s.params.explicitClkLow w)

/-- R149, R151: with `EXPLICIT_CLK_LOW` the step of `Open` leads to `OpenClk`, whose step writes `CLK` low at its
low level (schedule: log 2); the write trace has 51 events with it and 50 without. -/
def Obligations.ExplicitClockLowAddsOneEvent : Prop :=
  (∀ s : State, s.Inv → s.turns = [] → s.txPhase = .opening → s.params.explicitClkLow = true →
    ∃ t, core.run 2 s = .next t ∧ t.txPhase = .settle0 ∧ t.clk = s.clk ∧
      writes t.history = writes s.history ++ [(.ceN, false), (.clk, false)]) ∧
  ∀ w : Word16, (sendTrace true w).length = 51 ∧ (sendTrace false w).length = 50

/-- R153: a SEND lasts at least 43 µs, under every schedule: from its acceptance on it has lasted at least what its
phase says, and 43 µs when it completes. -/
def Obligations.SendLastsAtLeast43Microseconds : Prop :=
  (∀ s t : State, s.canAccept = true → exec .send s = .next t → t.sendingSince s.now) ∧
  ∀ (s t : State) (start : Nat), s.sendingSince start → s.resetNext = false → step s = .next t →
    t.sendingSince start ∨ t.txPhase = .idle ∧ start + 43 ≤ t.now

/-- R214: a SEND finishes under every schedule that is fair to the time base and the block, if the host does not
assert reset. Fairness is the assumption, and there is no bound. -/
def Obligations.SendFinishesUnderFairness : Prop :=
  ∀ (schedule : Nat → Turn) (s : State) (before : List (Line × Level)) (w : Word16),
    Fair schedule → s.Inv → s.sending before w → s.hostIsHarmless →
      ∃ n t, core.run n { s with turns := firstTurns schedule n } = .next t ∧
        t.txPhase = .idle ∧ t.txWord = w ∧
          writes t.history = before ++ sendTrace s.params.explicitClkLow w

/-- R214: without time there is no progress: in a wait that has not elapsed, no number of turns of the block changes
anything. -/
def Obligations.WaitsEndOnlyByTime : Prop :=
  ∀ (s : State) (n : Nat), s.txPhase.waits = true → s.txEnabled = false →
    core.run n { s with turns := List.replicate n .block } = .next { s with turns := [] }

/-- R160 to R162: from lines at their idle levels, the write trace of a SEND of `w`, in either setting of
`EXPLICIT_CLK_LOW`, is one more transaction, received as `w`. -/
def Obligations.ReceiverGetsTheWord : Prop :=
  ∀ (h events : List LineEvent) (explicitClkLow : Bool) (w : Word16),
    (receive h).ceN = true → (receive h).clk = false →
      writes events = sendTrace explicitClkLow w →
        receivedWords (h ++ events) = receivedWords h ++ [some w] ∧
          (receive (h ++ events)).closed.length = (receive h).closed.length + 1

/-- R142, R144, R145, R147, R152, R210: a wait ends no earlier than its minimum after the event before it. -/
def Obligations.WaitsHoldTheirMinimum : Prop :=
  ∀ s t : State, s.Inv → s.txPhase.waits = true → s.resetNext = false → step s = .next t →
    t.txPhase ≠ s.txPhase →
      ∃ e, s.history.getLast? = some e ∧
        e.time + (if s.txPhase = .finalWait then 10 else 1) ≤ s.now ∧ t.history = s.history

/-- R152: the events that follow a settle wait (`DATA` writes, `CLK` falls, `CE_N` rises) come at least 1 µs
after the event before them. -/
def Obligations.SettleSeparatesEvents : Prop :=
  ∀ s t : State, s.Inv → s.txPhase.afterSettle = true → s.resetNext = false → step s = .next t →
    t.history ≠ s.history →
      ∃ e₀ e, s.history.getLast? = some e₀ ∧ t.history = s.history ++ [e] ∧ e₀.time + 1 ≤ e.time

/-- R32, R63: the word being sent is constant until the SEND completes, whatever the host writes. -/
def Obligations.SentWordIsConstant : Prop :=
  ∀ s t : State, s.txPhase ≠ .idle → s.resetNext = false → step s = .next t → t.txWord = s.txWord

/-! ## Faults -/

/-- R171, R175: a faulted block stays as it is, through every step that does not assert reset. -/
def Obligations.FaultedBlockIsStuck : Prop :=
  ∀ (s t : State) (k : FaultKind), s.Inv → s.fault = some k → s.resetNext = false →
    step s = .next t →
      t.fault = some k ∧ t.res = s.res ∧ t.txPhase = .idle ∧ t.txWord = s.txWord ∧
        t.history = s.history ∧ t.data = s.data ∧ t.clk = s.clk ∧ t.ceN = s.ceN ∧
        t.canAccept = false

/-- R33, R173: `FAULT` changes only where reset clears it, or in the acceptance step of a presented command, in
`Idle`; that step then writes nothing else, but for whether a command is still presented (log 15) and the listed
turns (log 1). -/
def Obligations.FaultsArePrecise : Prop :=
  ∀ s t : State, step s = .next t → t.fault ≠ s.fault →
    (s.resetNext = true ∧ t.fault = none) ∨
      (s.canAccept = true ∧ s.presented = true ∧ s.txPhase = .idle ∧ t.fault ≠ none ∧
        { t with presented := s.presented, fault := s.fault, turns := s.turns } = s)

/-- R71, R104, R107, R174: accepting a command of R71 never raises `IllegalCommand`. -/
def Obligations.CommandsNeverRaiseIllegalCommand : Prop :=
  ∀ (i : Instr) (s : State), s.canAccept = true →
    ∃ t, exec i s = .next t ∧ t.fault ≠ some .illegalCommand

/-- R25, K10 (log 4): no step is refused, and one faults exactly where the host reads an `Unwritten`
`RES`. -/
def Obligations.OnlyReadingUnwrittenResStops : Prop :=
  ∀ s : State, (∀ r, step s ≠ .refused r) ∧
    (∀ r, step s = .fault r ↔
      r = .resUnwritten ∧ s.res = none ∧ ∃ p, s.nextHostMove = some (.copyRes p))

/-! ## Host, time and reset -/

/-- R21 to R23, R30, R100: no step but a host move writes the host's ports, its enable lines or the reset
input. -/
def Obligations.BlockNeverWritesHostState : Prop :=
  ∀ s t : State, s.nextHostMove = none → step s = .next t →
    t.cmd = s.cmd ∧ t.f = s.f ∧ t.x = s.x ∧ t.y = s.y ∧ t.z = s.z ∧ t.oscOe = s.oscOe ∧
      t.drvEn = s.drvEn ∧ t.resetIn = s.resetIn

/-- R207, R178: no host move but asserting reset writes a line, the transmitter's state, `RES` or `FAULT`. -/
def Obligations.HostNeverWritesBlockState : Prop :=
  ∀ (s t : State) (a : HostMove), s.nextHostMove = some a → a ≠ .assertReset → step s = .next t →
    t.data = s.data ∧ t.clk = s.clk ∧ t.ceN = s.ceN ∧ t.history = s.history ∧
      t.txPhase = s.txPhase ∧ t.txWord = s.txWord ∧ t.txBit = s.txBit ∧ t.txT0 = s.txT0 ∧
      t.res = s.res ∧ t.fault = s.fault ∧ t.now = s.now

/-- R30, R195: the host's enable lines take the value the host writes, and nothing else changes but the schedule
(log 1). -/
def Obligations.EnableLinesFollowTheHost : Prop :=
  ∀ (s : State) (on : Bool),
    (s.nextHostMove = some (.setOscOe on) → step s = .next { s with
      turns := s.turns.tail, pending := s.pending.tail,
      oscOe := if on then .enabled else .disabled }) ∧
    (s.nextHostMove = some (.setDrvEn on) → step s = .next { s with
      turns := s.turns.tail, pending := s.pending.tail,
      drvEn := if on then .enabled else .disabled })

/-- R21 to R23, R25, R26, R80: a host write lands: the port holds the value written, a copy of `RES` the result
where it is written, and a presented word is on `CMD`; nothing else changes but the schedule (log 1). -/
def Obligations.HostWritesLand : Prop :=
  ∀ s : State, let u := { s with turns := s.turns.tail, pending := s.pending.tail }
    (∀ v, s.nextHostMove = some (.setF v) → step s = .next { u with f := v }) ∧
    (∀ v, s.nextHostMove = some (.setInt .x v) → step s = .next { u with x := v }) ∧
    (∀ v, s.nextHostMove = some (.setInt .y v) → step s = .next { u with y := v }) ∧
    (∀ v, s.nextHostMove = some (.setInt .z v) → step s = .next { u with z := v }) ∧
    (∀ v, s.res = some v → s.nextHostMove = some (.copyRes .x) → step s = .next { u with x := v }) ∧
    (∀ v, s.res = some v → s.nextHostMove = some (.copyRes .y) → step s = .next { u with y := v }) ∧
    (∀ v, s.res = some v → s.nextHostMove = some (.copyRes .z) → step s = .next { u with z := v }) ∧
    (∀ c, s.nextHostMove = some (.present c) →
      step s = .next { u with cmd := c, presented := true })

/-- R206, R208 (schedule: log 1): a host that waits for its last command goes on exactly where the block is ready
and holds no command; nothing else changes. -/
def Obligations.HostWaitsForItsCommand : Prop :=
  ∀ (s : State) (w : List Turn) (p : List HostAct),
    s.turns = .host :: w → s.pending = .awaitReady :: p →
      step s = .next { s with
        turns := w, pending := if s.lastCompleted then p else .awaitReady :: p } ∧
      (s.lastCompleted = true ↔
        s.ready = true ∧ s.resetIn = false ∧ s.presented = false)

/-- R9: the parameters at the values the spec takes, and that a machine right after reset has them. -/
def Obligations.ParametersAsTheSpecTakesThem : Prop :=
  ratio Params.spec.epsOct = (2 : ℝ) ^ (-40 : ℤ) ∧ ratio Params.spec.epsDac = (2 : ℝ) ^ (-40 : ℤ) ∧
    Params.spec.wInt = 32 ∧ val Params.spec.fModelLo = (2 : ℝ) ^ (-1000 : ℤ) ∧
    val Params.spec.fModelHi = (2 : ℝ) ^ (1000 : ℤ) ∧ Params.spec.eMin = -1010 ∧
    Params.spec.eMax = 1010 ∧ Params.spec.explicitClkLow = false ∧
    admissible .spec = true ∧ State.reset.params = .spec

/-- R9, R35 ("none is writable"; that they stand in the state is log 7): no step changes the parameters. -/
def Obligations.ParametersNeverChange : Prop :=
  ∀ s t : State, step s = .next t → t.params = s.params

/-- R55, R58, R180: time does not go back, and the line history only grows, by events stamped with the time of
the step; a turn of the time base (schedule: log 1) advances it by the turn's duration and changes nothing
else. -/
def Obligations.HistoryOnlyGrows : Prop :=
  (∀ (s : State) (dt : Nat) (w : List Turn), s.turns = .time dt :: w →
    step s = .next { s with turns := w, now := s.now + dt }) ∧
  ∀ s t : State, step s = .next t → s.now ≤ t.now ∧
    ∃ es : List LineEvent, t.history = s.history ++ es ∧ (∀ e ∈ es, e.time = s.now) ∧
      (s.resetNext = false → es.length ≤ 1)

/-- R190, R191: asserting reset, in any state, gives the block its reset values, and only the lines whose level
changes make an event (their order: log 14). The host's ports and a presented command stay (the model's choice,
log 11), its enable lines too (log 12), and time and parameters. -/
def Obligations.AssertedResetRestoresTheBlock : Prop :=
  ∀ s : State, s.nextHostMove = some .assertReset →
    ∃ t, step s = .next t ∧ t.data = false ∧ t.clk = false ∧ t.ceN = true ∧ t.txPhase = .idle ∧
      t.fault = none ∧ t.res = none ∧ t.resetIn = true ∧ t.canAccept = false ∧
      t.history = s.history ++ (if s.data then [⟨.data, false, s.now⟩] else []) ++
        (if s.clk then [⟨.clk, false, s.now⟩] else []) ++
        (if s.ceN then [] else [⟨.ceN, true, s.now⟩]) ∧
      t.cmd = s.cmd ∧ t.f = s.f ∧ t.x = s.x ∧ t.y = s.y ∧ t.z = s.z ∧ t.presented = s.presented ∧
      t.oscOe = s.oscOe ∧ t.drvEn = s.drvEn ∧ t.now = s.now ∧ t.params = s.params

/-- R191, R192: after release the block can accept a command. -/
def Obligations.ReleasedResetIsReady : Prop :=
  ∀ s : State, s.Inv → s.resetIn = true → s.nextHostMove = some .releaseReset →
    ∃ t, step s = .next t ∧ t.ready = true ∧ t.canAccept = true

/-- R38, R192: the reset values the spec gives; and that nothing is presented at reset, the model's choice (log 11).
The values the spec leaves unspecified (log 10 to log 12) are no part of this. -/
def Obligations.ResetStateAsTheSpecGivesIt : Prop :=
  State.reset.res = none ∧ State.reset.data = false ∧ State.reset.clk = false ∧
    State.reset.ceN = true ∧ State.reset.txPhase = .idle ∧ State.reset.fault = none ∧
    State.reset.ready = true ∧ State.reset.canAccept = true ∧ State.reset.presented = false

/-- The invariant holds at reset. -/
def Obligations.InvariantAtReset : Prop := State.reset.Inv

/-- R31, R39, R58, R142, R149, R157, R171, R190: every step keeps the invariant `State.Inv`. -/
def Obligations.InvariantIsKept : Prop := ∀ s t : State, s.Inv → step s = .next t → t.Inv

/-- R39: in `Idle`, `CLK = 0` and `CE_N = 1`: after reset, and after every step from a state of the
invariant. -/
def Obligations.IdleLines : Prop :=
  (State.reset.clk = false ∧ State.reset.ceN = true) ∧
    ∀ s t : State, s.Inv → step s = .next t → t.txPhase = .idle → t.clk = false ∧ t.ceN = true
end

