-- ==== Sys2Proof/Laws/LogTen.lean ====
section
/-! SUPPORT. The enclosure of `Machine/LogTen.lean` is sound and narrow: `logTenLow` and `logTenHigh` bound
`2 ^ logSteps * log10 (num / den)` and lie at most 3 apart. -/

namespace Sys2Proof.Machine

open Config

/-- The number a mantissa and a decimal exponent stand for. -/
noncomputable def mantVal (m e : Nat) : ℝ := (m : ℝ) / mantScale * 10 ^ e

theorem mantScale_pos : 0 < mantScale := by norm_num [mantScale]

theorem mantScale_real_pos : (0 : ℝ) < mantScale := by exact_mod_cast mantScale_pos

theorem le_ceilDiv_mul (a : Nat) {b : Nat} (hb : 0 < b) : a ≤ ceilDiv a b * b := by
  unfold ceilDiv
  have h1 := Nat.div_add_mod (a + (b - 1)) b
  have h2 := Nat.mod_lt (a + (b - 1)) hb
  rw [mul_comm]
  omega

theorem ceilDiv_le {a b c : Nat} (hb : 0 < b) (h : a ≤ c * b) : ceilDiv a b ≤ c := by
  unfold ceilDiv
  rw [← Nat.lt_succ_iff, Nat.div_lt_iff_lt_mul hb, Nat.succ_mul]
  omega

theorem ceilDiv_le_div_succ (a b : Nat) (hb : 0 < b) : ceilDiv a b ≤ a / b + 1 := by
  apply ceilDiv_le hb
  have h1 := Nat.div_add_mod a b
  have h2 := Nat.mod_lt a hb
  rw [Nat.succ_mul, mul_comm]
  omega

/-- The mantissa of the square, where the square stays below ten. -/
theorem mantVal_sq (m e : Nat) :
    mantVal m e ^ 2 = (m * m : ℝ) / mantScale / mantScale * 10 ^ (2 * e) := by
  have := mantScale_real_pos.ne'
  unfold mantVal
  field_simp
  ring

/-- The mantissa of the square, where the square is ten or more. -/
theorem mantVal_sq_carry (m e : Nat) :
    mantVal m e ^ 2 = (m * m : ℝ) / (10 * mantScale) / mantScale * 10 ^ (2 * e + 1) := by
  have := mantScale_real_pos.ne'
  unfold mantVal
  field_simp
  ring

theorem mantVal_nonneg (m e : Nat) : 0 ≤ mantVal m e := by
  unfold mantVal; positivity

theorem mantVal_floor_le (a b e : Nat) :
    mantVal (a / b) e ≤ (a : ℝ) / b / mantScale * 10 ^ e := by
  unfold mantVal
  have : ((a / b : Nat) : ℝ) ≤ (a : ℝ) / b := Nat.cast_div_le
  gcongr

theorem le_mantVal_ceil (a e : Nat) {b : Nat} (hb : 0 < b) :
    (a : ℝ) / b / mantScale * 10 ^ e ≤ mantVal (ceilDiv a b) e := by
  unfold mantVal
  have hb' : (0 : ℝ) < b := by exact_mod_cast hb
  have : (a : ℝ) / b ≤ (ceilDiv a b : ℝ) := by
    rw [div_le_iff₀ hb']
    exact_mod_cast le_ceilDiv_mul a hb
  gcongr

/-- A mantissa of at least `mantScale` is at most one part in `mantScale` above its floor. -/
theorem mantVal_floor_ge {a b e : Nat} (hb : 0 < b) (h : mantScale * b ≤ a) :
    (1 - 1 / (mantScale : ℝ)) * ((a : ℝ) / b / mantScale * 10 ^ e) ≤ mantVal (a / b) e := by
  have hS := mantScale_real_pos
  have hb' : (0 : ℝ) < b := by exact_mod_cast hb
  have h1 : (a : ℝ) / b - 1 ≤ ((a / b : Nat) : ℝ) := by
    have hlt : a < b * (a / b + 1) := Nat.lt_mul_div_succ a hb
    have : (a : ℝ) ≤ b * (((a / b : Nat) : ℝ) + 1) := by exact_mod_cast hlt.le
    rw [sub_le_iff_le_add, div_le_iff₀ hb']
    linarith
  have h2 : (mantScale : ℝ) ≤ (a : ℝ) / b := by
    rw [le_div_iff₀ hb']
    exact_mod_cast h
  have h3 : (1 - 1 / (mantScale : ℝ)) * ((a : ℝ) / b) ≤ ((a / b : Nat) : ℝ) := by
    have : 1 ≤ 1 / (mantScale : ℝ) * ((a : ℝ) / b) := by
      rw [one_div, inv_mul_eq_div, le_div_iff₀ hS]
      linarith
    linarith
  unfold mantVal
  calc (1 - 1 / (mantScale : ℝ)) * ((a : ℝ) / b / mantScale * 10 ^ e)
      = (1 - 1 / (mantScale : ℝ)) * ((a : ℝ) / b) / mantScale * 10 ^ e := by ring
    _ ≤ _ := by gcongr

/-- A mantissa of at least `mantScale` is at most one part in `mantScale` below its ceiling. -/
theorem mantVal_ceil_le {a b e : Nat} (hb : 0 < b) (h : mantScale * b ≤ a) :
    mantVal (ceilDiv a b) e ≤ (1 + 1 / (mantScale : ℝ)) * ((a : ℝ) / b / mantScale * 10 ^ e) := by
  have hS := mantScale_real_pos
  have hb' : (0 : ℝ) < b := by exact_mod_cast hb
  have h1 : (ceilDiv a b : ℝ) ≤ (a : ℝ) / b + 1 := by
    have h0 : (ceilDiv a b : ℝ) ≤ ((a / b : Nat) : ℝ) + 1 := by
      exact_mod_cast ceilDiv_le_div_succ a b hb
    have : ((a / b : Nat) : ℝ) ≤ (a : ℝ) / b := Nat.cast_div_le
    linarith
  have h2 : (mantScale : ℝ) ≤ (a : ℝ) / b := by
    rw [le_div_iff₀ hb']
    exact_mod_cast h
  have h3 : (ceilDiv a b : ℝ) ≤ (1 + 1 / (mantScale : ℝ)) * ((a : ℝ) / b) := by
    have : 1 ≤ 1 / (mantScale : ℝ) * ((a : ℝ) / b) := by
      rw [one_div, inv_mul_eq_div, le_div_iff₀ hS]
      linarith
    linarith
  unfold mantVal
  calc (ceilDiv a b : ℝ) / mantScale * 10 ^ e
      ≤ (1 + 1 / (mantScale : ℝ)) * ((a : ℝ) / b) / mantScale * 10 ^ e := by gcongr
    _ = _ := by ring

/-! ## Soundness -/

theorem pow_logDown_le (k : Nat) : ∀ (m e : Nat) (x : ℝ), mantScale ≤ m → mantVal m e ≤ x →
    (10 : ℝ) ^ logDown k m e ≤ x ^ 2 ^ k := by
  induction k with
  | zero =>
    intro m e x hm hx
    have h1 : (1 : ℝ) ≤ (m : ℝ) / mantScale := by
      rw [le_div_iff₀ mantScale_real_pos, one_mul]; exact_mod_cast hm
    have : (10 : ℝ) ^ e ≤ mantVal m e := le_mul_of_one_le_left (by positivity) h1
    simpa [logDown] using this.trans hx
  | succ k ih =>
    intro m e x hm hx
    have hsq : mantVal m e ^ 2 ≤ x ^ 2 := by
      have := mantVal_nonneg m e
      gcongr
    have hmm : mantScale * mantScale ≤ m * m := Nat.mul_le_mul hm hm
    have hpow : x ^ 2 ^ (k + 1) = (x ^ 2) ^ 2 ^ k := by rw [← pow_mul, pow_succ']
    rw [hpow, logDown]
    split
    · apply ih
      · exact (Nat.le_div_iff_mul_le mantScale_pos).2 hmm
      · refine (mantVal_floor_le _ _ _).trans ?_
        rw [mantVal_sq] at hsq
        exact_mod_cast hsq
    · rename_i hbig
      apply ih
      · rw [Nat.le_div_iff_mul_le (by have := mantScale_pos; omega)]
        calc mantScale * (10 * mantScale) = 10 * mantScale * mantScale := by ring
          _ ≤ m * m := not_lt.1 hbig
      · refine (mantVal_floor_le _ _ _).trans ?_
        rw [mantVal_sq_carry] at hsq
        exact_mod_cast hsq

theorem le_pow_logUp (k : Nat) : ∀ (m e : Nat) (x : ℝ), m ≤ 10 * mantScale → 0 ≤ x →
    x ≤ mantVal m e → x ^ 2 ^ k ≤ (10 : ℝ) ^ (logUp k m e + 1) := by
  induction k with
  | zero =>
    intro m e x hm _ hx
    have h1 : (m : ℝ) / mantScale ≤ 10 := by
      rw [div_le_iff₀ mantScale_real_pos]; exact_mod_cast hm
    have : mantVal m e ≤ 10 ^ (e + 1) := by
      rw [pow_succ', mantVal]; gcongr
    simpa [logUp] using hx.trans this
  | succ k ih =>
    intro m e x hm h0 hx
    have hsq : x ^ 2 ≤ mantVal m e ^ 2 := by gcongr
    have hpow : x ^ 2 ^ (k + 1) = (x ^ 2) ^ 2 ^ k := by rw [← pow_mul, pow_succ']
    rw [hpow, logUp]
    split
    · rename_i hsmall
      apply ih
      · exact ceilDiv_le mantScale_pos hsmall.le
      · positivity
      · refine le_trans ?_ (le_mantVal_ceil _ _ mantScale_pos)
        rw [mantVal_sq] at hsq
        exact_mod_cast hsq
    · have hpos : 0 < 10 * mantScale := by have := mantScale_pos; omega
      apply ih
      · exact ceilDiv_le hpos (Nat.mul_le_mul hm hm)
      · positivity
      · refine le_trans ?_ (le_mantVal_ceil _ _ hpos)
        rw [mantVal_sq_carry] at hsq
        exact_mod_cast hsq

/-! ## Width -/

theorem pow_logUp_le (k : Nat) : ∀ m e : Nat, mantScale ≤ m →
    (10 : ℝ) ^ logUp k m e ≤ ((1 + 1 / (mantScale : ℝ)) * mantVal m e) ^ 2 ^ k := by
  have hS := mantScale_real_pos
  set c : ℝ := 1 + 1 / (mantScale : ℝ) with hc
  have hc1 : 1 ≤ c := by rw [hc]; have : (0 : ℝ) < 1 / (mantScale : ℝ) := by positivity
                         linarith
  induction k with
  | zero =>
    intro m e hm
    have h1 : (1 : ℝ) ≤ (m : ℝ) / mantScale := by
      rw [le_div_iff₀ hS, one_mul]; exact_mod_cast hm
    have h2 : (10 : ℝ) ^ e ≤ mantVal m e := le_mul_of_one_le_left (by positivity) h1
    have h3 : mantVal m e ≤ c * mantVal m e := le_mul_of_one_le_left (mantVal_nonneg m e) hc1
    simpa [logUp] using h2.trans h3
  | succ k ih =>
    intro m e hm
    have hmm : mantScale * mantScale ≤ m * m := Nat.mul_le_mul hm hm
    have hpow : (c * mantVal m e) ^ 2 ^ (k + 1) = (c * (c * mantVal m e ^ 2)) ^ 2 ^ k := by
      rw [pow_succ', pow_mul]; congr 1; ring
    have hn : ∀ a b, 0 ≤ c * mantVal a b := fun a b =>
      mul_nonneg (by linarith) (mantVal_nonneg a b)
    rw [hpow, logUp]
    split
    · refine (ih _ _ ?_).trans ?_
      · have h := le_ceilDiv_mul (m * m) mantScale_pos
        exact Nat.le_of_mul_le_mul_right (hmm.trans h) mantScale_pos
      · have := mantVal_ceil_le (e := 2 * e) mantScale_pos hmm
        have hle : mantVal (ceilDiv (m * m) mantScale) (2 * e) ≤ c * mantVal m e ^ 2 := by
          rw [mantVal_sq]; exact_mod_cast this
        have h0 := hn (ceilDiv (m * m) mantScale) (2 * e)
        gcongr
    · rename_i hbig
      have hpos : 0 < 10 * mantScale := by have := mantScale_pos; omega
      have hbig' : mantScale * (10 * mantScale) ≤ m * m := by
        calc mantScale * (10 * mantScale) = 10 * mantScale * mantScale := by ring
          _ ≤ m * m := not_lt.1 hbig
      refine (ih _ _ ?_).trans ?_
      · have h := le_ceilDiv_mul (m * m) hpos
        exact Nat.le_of_mul_le_mul_right (hbig'.trans h) hpos
      · have := mantVal_ceil_le (e := 2 * e + 1) hpos hbig'
        have hle : mantVal (ceilDiv (m * m) (10 * mantScale)) (2 * e + 1) ≤
            c * mantVal m e ^ 2 := by
          rw [mantVal_sq_carry]; exact_mod_cast this
        have h0 := hn (ceilDiv (m * m) (10 * mantScale)) (2 * e + 1)
        gcongr

theorem lt_pow_logDown (k : Nat) : ∀ m e : Nat, mantScale ≤ m → m < 10 * mantScale →
    ((1 - 1 / (mantScale : ℝ)) * mantVal m e) ^ 2 ^ k < (10 : ℝ) ^ (logDown k m e + 1) := by
  have hS := mantScale_real_pos
  set d : ℝ := 1 - 1 / (mantScale : ℝ) with hd
  have hd1 : d ≤ 1 := by rw [hd]; have : (0 : ℝ) < 1 / (mantScale : ℝ) := by positivity
                         linarith
  have hd0 : 0 ≤ d := by
    have : 1 / (mantScale : ℝ) ≤ 1 := by
      rw [div_le_one hS]; exact_mod_cast mantScale_pos
    rw [hd]; linarith
  induction k with
  | zero =>
    intro m e _ hm
    have h1 : (m : ℝ) / mantScale < 10 := by
      rw [div_lt_iff₀ hS]; exact_mod_cast hm
    have h2 : mantVal m e < 10 ^ (e + 1) := by
      rw [pow_succ', mantVal]; gcongr
    have h3 : d * mantVal m e ≤ mantVal m e := mul_le_of_le_one_left (mantVal_nonneg m e) hd1
    simpa [logDown] using h3.trans_lt h2
  | succ k ih =>
    intro m e hm hm10
    have hmm : mantScale * mantScale ≤ m * m := Nat.mul_le_mul hm hm
    have hpow : (d * mantVal m e) ^ 2 ^ (k + 1) = (d * (d * mantVal m e ^ 2)) ^ 2 ^ k := by
      rw [pow_succ', pow_mul]; congr 1; ring
    have hn : 0 ≤ d * (d * mantVal m e ^ 2) := by positivity
    rw [hpow, logDown]
    split
    · rename_i hsmall
      refine lt_of_le_of_lt ?_ (ih _ _ ?_ ?_)
      · have := mantVal_floor_ge (e := 2 * e) mantScale_pos hmm
        have hle : d * mantVal m e ^ 2 ≤ mantVal (m * m / mantScale) (2 * e) := by
          rw [mantVal_sq]; exact_mod_cast this
        gcongr
      · exact (Nat.le_div_iff_mul_le mantScale_pos).2 hmm
      · exact (Nat.div_lt_iff_lt_mul mantScale_pos).2 hsmall
    · rename_i hbig
      have hpos : 0 < 10 * mantScale := by have := mantScale_pos; omega
      have hbig' : mantScale * (10 * mantScale) ≤ m * m := by
        calc mantScale * (10 * mantScale) = 10 * mantScale * mantScale := by ring
          _ ≤ m * m := not_lt.1 hbig
      refine lt_of_le_of_lt ?_ (ih _ _ ?_ ?_)
      · have := mantVal_floor_ge (e := 2 * e + 1) hpos hbig'
        have hle : d * mantVal m e ^ 2 ≤ mantVal (m * m / (10 * mantScale)) (2 * e + 1) := by
          rw [mantVal_sq_carry]; exact_mod_cast this
        gcongr
      · exact (Nat.le_div_iff_mul_le hpos).2 hbig'
      · exact (Nat.div_lt_iff_lt_mul hpos).2 (Nat.mul_lt_mul'' hm10 hm10)

/-- The accumulated rounding is less than one decimal digit. -/
theorem rounding_small :
    ((1 + 1 / (mantScale : ℝ)) * (1 + 1 / (mantScale : ℝ)) / (1 - 1 / (mantScale : ℝ))) ^
      2 ^ logSteps ≤ 10 := by
  have hS := mantScale_real_pos
  have h1 : (1 + 1 / (mantScale : ℝ)) * (1 + 1 / (mantScale : ℝ)) / (1 - 1 / (mantScale : ℝ)) ≤
      4 / (mantScale : ℝ) + 1 := by
    rw [div_le_iff₀ (by norm_num [mantScale])]
    norm_num [mantScale]
  have h2 : (4 / (mantScale : ℝ) + 1) ^ 2 ^ logSteps ≤ Real.exp 1 := by
    calc (4 / (mantScale : ℝ) + 1) ^ 2 ^ logSteps
        ≤ Real.exp (4 / (mantScale : ℝ)) ^ 2 ^ logSteps := by
          gcongr; exact Real.add_one_le_exp _
      _ = Real.exp ((2 ^ logSteps : ℕ) * (4 / (mantScale : ℝ))) := by rw [Real.exp_nat_mul]
      _ ≤ Real.exp 1 := by
          apply Real.exp_le_exp.2
          norm_num [mantScale, logSteps]
  have h3 : Real.exp 1 ≤ 10 := by have := Real.exp_one_lt_d9; linarith
  have h0 : 0 ≤ (1 + 1 / (mantScale : ℝ)) * (1 + 1 / (mantScale : ℝ)) /
      (1 - 1 / (mantScale : ℝ)) := by norm_num [mantScale]
  calc _ ≤ (4 / (mantScale : ℝ) + 1) ^ 2 ^ logSteps := by gcongr
    _ ≤ _ := h2.trans h3

/-! ## The two bounds -/

section Bounds

variable {num den : Nat}

/-- The starting mantissas: they enclose `num / den` and are normalised. -/
theorem log_start (hd : 0 < den) (h : den ≤ num) :
    den * 10 ^ Nat.log 10 (num / den) ≤ num ∧ num < 10 * (den * 10 ^ Nat.log 10 (num / den)) := by
  have hq : num / den ≠ 0 := (Nat.div_pos h hd).ne'
  constructor
  · have := Nat.pow_log_le_self 10 hq
    calc den * 10 ^ Nat.log 10 (num / den) ≤ den * (num / den) := Nat.mul_le_mul_left _ this
      _ ≤ num := Nat.mul_div_le num den
  · have := Nat.lt_pow_succ_log_self (b := 10) (by norm_num) (num / den)
    have h2 := (Nat.div_lt_iff_lt_mul hd).1 this
    calc num < _ := h2
      _ = _ := by rw [pow_succ]; ring

theorem log_start_low (hd : 0 < den) (h : den ≤ num) :
    let e := Nat.log 10 (num / den)
    let m := num * mantScale / (den * 10 ^ e)
    mantScale ≤ m ∧ m < 10 * mantScale ∧ mantVal m e ≤ (num : ℝ) / den := by
  obtain ⟨h1, h2⟩ := log_start hd h
  intro e m
  have hb : 0 < den * 10 ^ e := by positivity
  refine ⟨?_, ?_, ?_⟩
  · rw [Nat.le_div_iff_mul_le hb, mul_comm]
    exact Nat.mul_le_mul_right _ h1
  · rw [Nat.div_lt_iff_lt_mul hb]
    calc num * mantScale < 10 * (den * 10 ^ e) * mantScale :=
          Nat.mul_lt_mul_of_pos_right h2 mantScale_pos
      _ = _ := by ring
  · refine (mantVal_floor_le _ _ _).trans (le_of_eq ?_)
    have := mantScale_real_pos.ne'
    have : (den : ℝ) ≠ 0 := by exact_mod_cast hd.ne'
    push_cast
    field_simp

theorem log_start_high (hd : 0 < den) (h : den ≤ num) :
    let e := Nat.log 10 (num / den)
    let m := ceilDiv (num * mantScale) (den * 10 ^ e)
    mantScale ≤ m ∧ m ≤ 10 * mantScale ∧ (num : ℝ) / den ≤ mantVal m e := by
  obtain ⟨h1, h2⟩ := log_start hd h
  intro e m
  have hb : 0 < den * 10 ^ e := by positivity
  refine ⟨?_, ?_, ?_⟩
  · have h3 := le_ceilDiv_mul (num * mantScale) hb
    refine Nat.le_of_mul_le_mul_right (le_trans ?_ h3) hb
    rw [mul_comm]
    exact Nat.mul_le_mul_right _ h1
  · apply ceilDiv_le hb
    calc num * mantScale ≤ 10 * (den * 10 ^ e) * mantScale := Nat.mul_le_mul_right _ h2.le
      _ = _ := by ring
  · refine le_trans (le_of_eq ?_) (le_mantVal_ceil _ _ hb)
    have := mantScale_real_pos.ne'
    have : (den : ℝ) ≠ 0 := by exact_mod_cast hd.ne'
    push_cast
    field_simp

/-- The lower bound is one. -/
theorem logTenLow_le (hd : 0 < den) (h : den ≤ num) :
    (logTenLow num den : ℝ) ≤ 2 ^ logSteps * Real.logb 10 ((num : ℝ) / den) := by
  obtain ⟨h1, -, h3⟩ := log_start_low hd h
  have hx : (0 : ℝ) < (num : ℝ) / den := by
    have : 0 < num := hd.trans_le h
    positivity
  have hp := pow_logDown_le logSteps _ _ _ h1 h3
  have := (Real.le_logb_iff_rpow_le (b := 10) (by norm_num) (y := ((num : ℝ) / den) ^ 2 ^ logSteps)
    (x := (logTenLow num den : ℝ)) (by positivity)).2 (by rw [Real.rpow_natCast]; exact hp)
  rw [Real.logb_pow] at this
  exact_mod_cast this

/-- The upper bound is one. -/
theorem le_logTenHigh (hd : 0 < den) (h : den ≤ num) :
    2 ^ logSteps * Real.logb 10 ((num : ℝ) / den) ≤ (logTenHigh num den : ℝ) := by
  obtain ⟨-, h2, h3⟩ := log_start_high hd h
  have hx : (0 : ℝ) < (num : ℝ) / den := by
    have : 0 < num := hd.trans_le h
    positivity
  have hp := le_pow_logUp logSteps _ _ _ h2 hx.le h3
  have := (Real.logb_le_iff_le_rpow (b := 10) (by norm_num) (x := ((num : ℝ) / den) ^ 2 ^ logSteps)
    (y := (logTenHigh num den : ℝ)) (by positivity)).2 (by rw [Real.rpow_natCast]; exact hp)
  rw [Real.logb_pow] at this
  exact_mod_cast this

/-- The bounds lie at most 3 apart. -/
theorem logTenHigh_le (hd : 0 < den) (h : den ≤ num) :
    logTenHigh num den ≤ logTenLow num den + 3 := by
  obtain ⟨h1, h2, -⟩ := log_start_low hd h
  obtain ⟨h4, -, -⟩ := log_start_high hd h
  set e := Nat.log 10 (num / den) with he
  set mLo := num * mantScale / (den * 10 ^ e) with hlo
  set mHi := ceilDiv (num * mantScale) (den * 10 ^ e) with hhi
  have hb : 0 < den * 10 ^ e := by positivity
  have hS := mantScale_real_pos
  set c : ℝ := 1 + 1 / (mantScale : ℝ) with hc
  set d : ℝ := 1 - 1 / (mantScale : ℝ) with hdd
  have hd0 : 0 < d := by norm_num [hdd, mantScale]
  have hc0 : 0 < c := by positivity
  have hratio : mantVal mHi e ≤ c * mantVal mLo e := by
    have hle : mHi ≤ mLo + 1 := ceilDiv_le_div_succ _ _ hb
    have h5 : (mHi : ℝ) ≤ (mLo : ℝ) + 1 := by exact_mod_cast hle
    have h6 : (1 : ℝ) ≤ 1 / (mantScale : ℝ) * mLo := by
      rw [one_div, inv_mul_eq_div, le_div_iff₀ hS, one_mul]; exact_mod_cast h1
    have h7 : (mHi : ℝ) ≤ c * mLo := by rw [hc]; linarith
    unfold mantVal
    calc (mHi : ℝ) / mantScale * 10 ^ e ≤ c * mLo / mantScale * 10 ^ e := by gcongr
      _ = _ := by ring
  have hup := pow_logUp_le logSteps mHi e h4
  have hdn := lt_pow_logDown logSteps mLo e h1 h2
  change logUp logSteps mHi e + 1 ≤ logDown logSteps mLo e + 3
  generalize logUp logSteps mHi e = up at *
  generalize logDown logSteps mLo e = down at *
  have hsmall := rounding_small
  rw [← hc, ← hdd] at hsmall
  generalize 2 ^ logSteps = n at hup hdn hsmall
  have hchain : (10 : ℝ) ^ up < 10 ^ (down + 2) := by
    have hn := mantVal_nonneg mHi e
    calc (10 : ℝ) ^ up ≤ (c * mantVal mHi e) ^ n := hup
      _ ≤ (c * (c * mantVal mLo e)) ^ n :=
          pow_le_pow_left₀ (mul_nonneg hc0.le hn) (mul_le_mul_of_nonneg_left hratio hc0.le) n
      _ = (c * c / d) ^ n * (d * mantVal mLo e) ^ n := by
          rw [← mul_pow]; congr 1; field_simp
      _ ≤ 10 * (d * mantVal mLo e) ^ n := by
          exact mul_le_mul_of_nonneg_right hsmall
            (pow_nonneg (mul_nonneg hd0.le (mantVal_nonneg mLo e)) n)
      _ < 10 * 10 ^ (down + 1) := by gcongr
      _ = 10 ^ (down + 2) := by ring
  have hlt := (pow_lt_pow_iff_right₀ (by norm_num : (1 : ℝ) < 10)).1 hchain
  omega

end Bounds

end Sys2Proof.Machine
end

