-- ==== Sys2Proof/Laws/Evaluate.lean ====
section
/-! SUPPORT. The evaluation functions: where a free choice lands, what the integer arithmetic encloses of the
exact values of R101 and R102, and that the admitted octaves are never none. -/

namespace Sys2Proof.Machine

open Sys2Proof.Admitted

/-! ## Free choices -/

theorem pick_mem {lo hi : Int} (h : lo ≤ hi) (free : Int) : lo ≤ pick lo hi free ∧ pick lo hi free ≤ hi := by
  unfold pick; split <;> omega

/-- Wherever the ends lie, the choice lies between them. -/
theorem pick_between (lo hi free : Int) :
    min lo hi ≤ pick lo hi free ∧ pick lo hi free ≤ max lo hi := by
  unfold pick; split <;> omega

theorem pick_of_eq {lo hi : Int} (h : lo = hi) (free : Int) : pick lo hi free = lo := by
  simp [pick, h]

/-! ## The classes of a frequency (R104) -/

variable {p : Params} {v : F64}

/-- What `classify` has found of a frequency it calls `Pos`. -/
theorem classify_pos (h : classify p v = .pos) :
    isNaN v = false ∧ v ≠ posInfPattern ∧ f64Sign v = false ∧ v ≠ 0 ∧
      f64Scaled p.fModelLo ≤ f64Scaled v ∧ f64Scaled v ≤ f64Scaled p.fModelHi := by
  unfold classify at h
  split at h; · cases h
  split at h; · cases h
  split at h; · cases h
  split at h; · cases h
  rename_i h1 h2 h3 h4
  simp only [f64NonPositive, Bool.or_eq_true, decide_eq_true_eq, not_or, not_lt] at h3 h4
  exact ⟨by simpa using h1, h2, by simpa using h3.1, by simpa using h3.2, h4.1, h4.2⟩

theorem f64Sign_false (h : classify p v = .pos) : f64Sign v = false := (classify_pos h).2.2.1

/-- A pattern without sign bit and with magnitude 0 is that of +0. -/
theorem eq_zero_of_f64Scaled (hs : f64Sign v = false) (h : f64Scaled v = 0) : v = 0 := by
  unfold f64Scaled at h
  split at h
  · rename_i he
    unfold f64Exponent at he
    unfold f64Fraction at h
    unfold f64Sign at hs
    rw [BitVec.getLsbD, Nat.testBit_eq_decide_div_mod_eq, decide_eq_false_iff_not] at hs
    rw [BitVec.extractLsb'_toNat, Nat.shiftRight_eq_div_pow] at he h
    have hv := v.isLt
    exact BitVec.eq_of_toNat_eq (by change v.toNat = 0; omega)
  · rcases Nat.mul_eq_zero.1 h with h | h
    · omega
    · exact absurd h (pow_ne_zero _ two_ne_zero)

theorem f64Scaled_pos (h : classify p v = .pos) : 0 < f64Scaled v :=
  Nat.pos_of_ne_zero fun h0 =>
    (classify_pos h).2.2.2.1 (eq_zero_of_f64Scaled (f64Sign_false h) h0)

/-- The exact value of a pattern without sign bit is its magnitude in multiples of `2 ^ -1074`. -/
theorem val_eq_scaled (h : f64Sign v = false) :
    val v = (f64Scaled v : ℝ) / 2 ^ 1074 := by
  unfold val f64Scaled
  rw [h, if_neg Bool.false_ne_true, one_mul]
  split
  · rw [div_eq_mul_inv, zpow_neg]
    norm_cast
  · rename_i he
    obtain ⟨k, hk⟩ := Nat.exists_eq_succ_of_ne_zero he
    have h2 : (2 : ℝ) ^ ((f64Exponent v : ℤ) - 1075) = 2 ^ k / 2 ^ 1074 := by
      have : ((f64Exponent v : ℤ) - 1075) = (k : ℤ) - (1074 : ℤ) := by rw [hk]; push_cast; ring
      rw [this, zpow_sub₀ (by norm_num), zpow_natCast]
      norm_cast
    rw [h2, hk]
    rw [Nat.succ_sub_one, Nat.cast_mul, Nat.cast_add, Nat.cast_pow, Nat.cast_pow, Nat.cast_ofNat,
      mul_div_assoc]

theorem val_pos (h : classify p v = .pos) : 0 < val v := by
  rw [val_eq_scaled (f64Sign_false h)]
  have : (0 : ℝ) < f64Scaled v := by exact_mod_cast f64Scaled_pos h
  positivity

/-! ## The octave (R101) -/

theorem octDen_pos : 0 < octDen := by decide +kernel

theorem octDen_le_octNum (h : classify p v = .pos) : octDen ≤ octNum v := by
  have h1 : octDen ≤ 1 * 10 ^ Config.logBias := by decide +kernel
  exact h1.trans (Nat.mul_le_mul_right _ (f64Scaled_pos h))

/-- The logarithm the enclosure bounds, in terms of the exact value of R101. -/
theorem octExact_eq (h : classify p v = .pos) :
    octExact (val v) = 3322 / 1000 *
      (Real.logb 10 ((octNum v : ℝ) / octDen) - Config.logBias) := by
  have hs : (0 : ℝ) < f64Scaled v := by exact_mod_cast f64Scaled_pos h
  have h2 : (octNum v : ℝ) / octDen = val v / 1039 * 10 ^ Config.logBias := by
    rw [val_eq_scaled (f64Sign_false h)]
    unfold octNum octDen f64FracBits Config.octRef
    rw [Nat.cast_mul, Nat.cast_mul, Nat.cast_pow, Nat.cast_pow]
    simp only [Nat.cast_ofNat]
    generalize (10 : ℝ) ^ Config.logBias = b
    generalize (2 : ℝ) ^ 1074 = t
    rw [div_div, mul_comm t, div_mul_eq_mul_div]
  have hv : 0 < val v / 1039 := by have := val_pos h; positivity
  rw [h2, Real.logb_mul hv.ne' (by positivity), Real.logb_pow, Real.logb_self_eq_one (by norm_num)]
  unfold octExact
  ring

theorem octScale_real : ((octScale : ℤ) : ℝ) = 1000 * 2 ^ Config.logSteps := by
  unfold octScale Config.octKDen; push_cast; ring

theorem octScale_pos : 0 < octScale := by decide +kernel

/-- The exact pre-floor value lies at or above its lower bound. -/
theorem octNumerLow_le (h : classify p v = .pos) :
    ((octNumerLow v : ℤ) : ℝ) ≤ octExact (val v) * octScale := by
  have h1 := logTenLow_le octDen_pos (octDen_le_octNum h)
  rw [octExact_eq h, octScale_real]
  unfold octNumerLow Config.octKNum
  push_cast
  generalize (2 : ℝ) ^ Config.logSteps = t at *
  linarith

/-- The exact pre-floor value lies at or below its upper bound. -/
theorem le_octNumerHigh (h : classify p v = .pos) :
    octExact (val v) * octScale ≤ ((octNumerHigh v : ℤ) : ℝ) := by
  have h1 := le_logTenHigh octDen_pos (octDen_le_octNum h)
  rw [octExact_eq h, octScale_real]
  unfold octNumerHigh Config.octKNum
  push_cast
  generalize (2 : ℝ) ^ Config.logSteps = t at *
  linarith

theorem octNumer_width (h : classify p v = .pos) :
    octNumerHigh v ≤ octNumerLow v + 3322 * 3 := by
  have h1 : ((logTenHigh (octNum v) octDen : ℕ) : ℤ) ≤ (logTenLow (octNum v) octDen : ℕ) + 3 := by
    exact_mod_cast logTenHigh_le octDen_pos (octDen_le_octNum h)
  unfold octNumerHigh octNumerLow Config.octKNum
  push_cast
  generalize (Config.logBias : ℤ) * 2 ^ Config.logSteps = t
  linarith

/-- Where the tolerance is wider than the enclosure, at least one octave is admitted. -/
theorem octLow_le_octHigh (h : classify p v = .pos) (h0 : 0 < p.epsOct.den)
    (hw : p.epsOct.den ≤ 2 ^ 90 * p.epsOct.num) : octLow p v ≤ octHigh p v := by
  unfold octLow octHigh
  split
  · exact le_refl 0
  · have h0' : (0 : ℤ) < p.epsOct.den := by exact_mod_cast h0
    have hw' : (p.epsOct.den : ℤ) ≤ 2 ^ 90 * p.epsOct.num := by exact_mod_cast hw
    have hscale : (3322 * 3 * 2 ^ 90 : ℤ) ≤ 2 * octScale := by decide +kernel
    have hbig : (3322 * 3 : ℤ) * p.epsOct.den ≤ 2 * (p.epsOct.num * octScale) := by
      have h1 : (0 : ℤ) ≤ p.epsOct.num := Int.natCast_nonneg _
      nlinarith
    unfold octBandLow octBandHigh
    apply Int.ediv_le_ediv (mul_pos octScale_pos h0')
    have h1 : (p.epsOct.num : ℤ) * octScale ≤ p.epsOct.num * max octScale |octNumerHigh v| := by
      gcongr; exact le_max_left _ _
    have h2 : (p.epsOct.num : ℤ) * octScale ≤ p.epsOct.num * max octScale |octNumerLow v| := by
      gcongr; exact le_max_left _ _
    have h3 := mul_le_mul_of_nonneg_right (octNumer_width h) h0'.le
    rw [add_mul] at h3
    linarith

/-- The evaluated octave lies between the least and the greatest admitted one. -/
theorem octEval_mem (h : octLow p v ≤ octHigh p v) :
    octLow p v ≤ octEval p v ∧ octEval p v ≤ octHigh p v := pick_mem h _

/-! ## The DAC value (R102, R107) -/

theorem dacDen_pos (h : classify p v = .pos) (o : Int) : 0 < dacDen v o := by
  have := f64Scaled_pos h
  unfold dacDen
  positivity

theorem dacLow_le_dacHigh (h : classify p v = .pos) (o : Int) : dacLow p v o ≤ dacHigh p v o := by
  unfold dacLow dacHigh
  split
  · exact le_refl _
  · have hb : 0 ≤ dacBand p.epsDac v o :=
      mul_nonneg (Int.natCast_nonneg _) (le_max_of_le_left (dacDen_pos h o).le)
    rcases Nat.eq_zero_or_pos p.epsDac.den with h0 | h0
    · simp [h0]
    · apply Int.tdiv_le_tdiv (mul_pos (dacDen_pos h o) (by exact_mod_cast h0))
      linarith

/-- The evaluated DAC value lies between the least and the greatest admitted one. -/
theorem dacEval_mem (h : classify p v = .pos) (o : Int) :
    dacLow p v o ≤ dacEval p v o ∧ dacEval p v o ≤ dacHigh p v o :=
  pick_mem (dacLow_le_dacHigh h o) _

/-- `dacFits` is the range test of R107. -/
theorem dacFits_iff (h : classify p v = .pos) (o : Int) :
    dacFits p v o = true ↔ intMin p ≤ dacEval p v o ∧ dacEval p v o ≤ intMax p := by
  obtain ⟨h1, h2⟩ := dacEval_mem h o
  unfold dacFits
  simp only [Bool.or_eq_true, Bool.and_eq_true, decide_eq_true_eq]
  split
  · simp only [Bool.false_eq_true, false_iff]; omega
  · split
    · simp only [true_iff]; omega
    · simp

end Sys2Proof.Machine
end

