-- ==== Sys2Proof/Laws/State.lean ====
section
/-! SUPPORT. One lemma per field per update, each true by unfolding the update once; so that no later proof
unfolds a record update. -/

namespace Sys2Proof.Machine

/-! ## `State.record` (R55) -/

@[simp] theorem State.record_cmd (s : State) (l : Line) (b : Level) : (s.record l b).cmd = s.cmd :=
    rfl
@[simp] theorem State.record_presented (s : State) (l : Line) (b : Level) :
    (s.record l b).presented = s.presented := rfl
@[simp] theorem State.record_f (s : State) (l : Line) (b : Level) : (s.record l b).f = s.f := rfl
@[simp] theorem State.record_x (s : State) (l : Line) (b : Level) : (s.record l b).x = s.x := rfl
@[simp] theorem State.record_y (s : State) (l : Line) (b : Level) : (s.record l b).y = s.y := rfl
@[simp] theorem State.record_z (s : State) (l : Line) (b : Level) : (s.record l b).z = s.z := rfl
@[simp] theorem State.record_res (s : State) (l : Line) (b : Level) : (s.record l b).res = s.res :=
    rfl
@[simp] theorem State.record_data (s : State) (l : Line) (b : Level) : (s.record l b).data = s.data :=
    rfl
@[simp] theorem State.record_clk (s : State) (l : Line) (b : Level) : (s.record l b).clk = s.clk :=
    rfl
@[simp] theorem State.record_ceN (s : State) (l : Line) (b : Level) : (s.record l b).ceN = s.ceN :=
    rfl
@[simp] theorem State.record_txPhase (s : State) (l : Line) (b : Level) :
    (s.record l b).txPhase = s.txPhase := rfl
@[simp] theorem State.record_txWord (s : State) (l : Line) (b : Level) :
    (s.record l b).txWord = s.txWord := rfl
@[simp] theorem State.record_txBit (s : State) (l : Line) (b : Level) :
    (s.record l b).txBit = s.txBit := rfl
@[simp] theorem State.record_txT0 (s : State) (l : Line) (b : Level) : (s.record l b).txT0 = s.txT0 :=
    rfl
@[simp] theorem State.record_fault (s : State) (l : Line) (b : Level) :
    (s.record l b).fault = s.fault := rfl
@[simp] theorem State.record_history (s : State) (l : Line) (b : Level) :
    (s.record l b).history = s.history ++ [⟨l, b, s.now⟩] := rfl
@[simp] theorem State.record_now (s : State) (l : Line) (b : Level) : (s.record l b).now = s.now :=
    rfl
@[simp] theorem State.record_oscOe (s : State) (l : Line) (b : Level) :
    (s.record l b).oscOe = s.oscOe := rfl
@[simp] theorem State.record_drvEn (s : State) (l : Line) (b : Level) :
    (s.record l b).drvEn = s.drvEn := rfl
@[simp] theorem State.record_resetIn (s : State) (l : Line) (b : Level) :
    (s.record l b).resetIn = s.resetIn := rfl
@[simp] theorem State.record_params (s : State) (l : Line) (b : Level) :
    (s.record l b).params = s.params := rfl
@[simp] theorem State.record_pending (s : State) (l : Line) (b : Level) :
    (s.record l b).pending = s.pending := rfl
@[simp] theorem State.record_turns (s : State) (l : Line) (b : Level) :
    (s.record l b).turns = s.turns := rfl

/-! ## `State.writeRes` (R25) -/

@[simp] theorem State.writeRes_cmd (s : State) (v : Word32) : (s.writeRes v).cmd = s.cmd := rfl
@[simp] theorem State.writeRes_presented (s : State) (v : Word32) :
    (s.writeRes v).presented = s.presented := rfl
@[simp] theorem State.writeRes_f (s : State) (v : Word32) : (s.writeRes v).f = s.f := rfl
@[simp] theorem State.writeRes_x (s : State) (v : Word32) : (s.writeRes v).x = s.x := rfl
@[simp] theorem State.writeRes_y (s : State) (v : Word32) : (s.writeRes v).y = s.y := rfl
@[simp] theorem State.writeRes_z (s : State) (v : Word32) : (s.writeRes v).z = s.z := rfl
@[simp] theorem State.writeRes_res (s : State) (v : Word32) : (s.writeRes v).res = some v := rfl
@[simp] theorem State.writeRes_data (s : State) (v : Word32) : (s.writeRes v).data = s.data := rfl
@[simp] theorem State.writeRes_clk (s : State) (v : Word32) : (s.writeRes v).clk = s.clk := rfl
@[simp] theorem State.writeRes_ceN (s : State) (v : Word32) : (s.writeRes v).ceN = s.ceN := rfl
@[simp] theorem State.writeRes_txPhase (s : State) (v : Word32) : (s.writeRes v).txPhase = s.txPhase :=
    rfl
@[simp] theorem State.writeRes_txWord (s : State) (v : Word32) : (s.writeRes v).txWord = s.txWord :=
    rfl
@[simp] theorem State.writeRes_txBit (s : State) (v : Word32) : (s.writeRes v).txBit = s.txBit :=
    rfl
@[simp] theorem State.writeRes_txT0 (s : State) (v : Word32) : (s.writeRes v).txT0 = s.txT0 := rfl
@[simp] theorem State.writeRes_fault (s : State) (v : Word32) : (s.writeRes v).fault = s.fault :=
    rfl
@[simp] theorem State.writeRes_history (s : State) (v : Word32) : (s.writeRes v).history = s.history :=
    rfl
@[simp] theorem State.writeRes_now (s : State) (v : Word32) : (s.writeRes v).now = s.now := rfl
@[simp] theorem State.writeRes_oscOe (s : State) (v : Word32) : (s.writeRes v).oscOe = s.oscOe :=
    rfl
@[simp] theorem State.writeRes_drvEn (s : State) (v : Word32) : (s.writeRes v).drvEn = s.drvEn :=
    rfl
@[simp] theorem State.writeRes_resetIn (s : State) (v : Word32) : (s.writeRes v).resetIn = s.resetIn :=
    rfl
@[simp] theorem State.writeRes_params (s : State) (v : Word32) : (s.writeRes v).params = s.params :=
    rfl
@[simp] theorem State.writeRes_pending (s : State) (v : Word32) : (s.writeRes v).pending = s.pending :=
    rfl
@[simp] theorem State.writeRes_turns (s : State) (v : Word32) : (s.writeRes v).turns = s.turns :=
    rfl

/-! ## `State.take` (R26) -/

@[simp] theorem State.take_cmd (s : State) : s.take.cmd = s.cmd := rfl
@[simp] theorem State.take_presented (s : State) : s.take.presented = false := rfl
@[simp] theorem State.take_f (s : State) : s.take.f = s.f := rfl
@[simp] theorem State.take_x (s : State) : s.take.x = s.x := rfl
@[simp] theorem State.take_y (s : State) : s.take.y = s.y := rfl
@[simp] theorem State.take_z (s : State) : s.take.z = s.z := rfl
@[simp] theorem State.take_res (s : State) : s.take.res = s.res := rfl
@[simp] theorem State.take_data (s : State) : s.take.data = s.data := rfl
@[simp] theorem State.take_clk (s : State) : s.take.clk = s.clk := rfl
@[simp] theorem State.take_ceN (s : State) : s.take.ceN = s.ceN := rfl
@[simp] theorem State.take_txPhase (s : State) : s.take.txPhase = s.txPhase := rfl
@[simp] theorem State.take_txWord (s : State) : s.take.txWord = s.txWord := rfl
@[simp] theorem State.take_txBit (s : State) : s.take.txBit = s.txBit := rfl
@[simp] theorem State.take_txT0 (s : State) : s.take.txT0 = s.txT0 := rfl
@[simp] theorem State.take_fault (s : State) : s.take.fault = s.fault := rfl
@[simp] theorem State.take_history (s : State) : s.take.history = s.history := rfl
@[simp] theorem State.take_now (s : State) : s.take.now = s.now := rfl
@[simp] theorem State.take_oscOe (s : State) : s.take.oscOe = s.oscOe := rfl
@[simp] theorem State.take_drvEn (s : State) : s.take.drvEn = s.drvEn := rfl
@[simp] theorem State.take_resetIn (s : State) : s.take.resetIn = s.resetIn := rfl
@[simp] theorem State.take_params (s : State) : s.take.params = s.params := rfl
@[simp] theorem State.take_pending (s : State) : s.take.pending = s.pending := rfl
@[simp] theorem State.take_turns (s : State) : s.take.turns = s.turns := rfl

/-! ## `State.raiseFault` (R171) -/

@[simp] theorem State.raiseFault_cmd (s : State) (k : FaultKind) : (s.raiseFault k).cmd = s.cmd :=
    rfl
@[simp] theorem State.raiseFault_presented (s : State) (k : FaultKind) :
    (s.raiseFault k).presented = s.presented := rfl
@[simp] theorem State.raiseFault_f (s : State) (k : FaultKind) : (s.raiseFault k).f = s.f := rfl
@[simp] theorem State.raiseFault_x (s : State) (k : FaultKind) : (s.raiseFault k).x = s.x := rfl
@[simp] theorem State.raiseFault_y (s : State) (k : FaultKind) : (s.raiseFault k).y = s.y := rfl
@[simp] theorem State.raiseFault_z (s : State) (k : FaultKind) : (s.raiseFault k).z = s.z := rfl
@[simp] theorem State.raiseFault_res (s : State) (k : FaultKind) : (s.raiseFault k).res = s.res :=
    rfl
@[simp] theorem State.raiseFault_data (s : State) (k : FaultKind) : (s.raiseFault k).data = s.data :=
    rfl
@[simp] theorem State.raiseFault_clk (s : State) (k : FaultKind) : (s.raiseFault k).clk = s.clk :=
    rfl
@[simp] theorem State.raiseFault_ceN (s : State) (k : FaultKind) : (s.raiseFault k).ceN = s.ceN :=
    rfl
@[simp] theorem State.raiseFault_txPhase (s : State) (k : FaultKind) :
    (s.raiseFault k).txPhase = s.txPhase := rfl
@[simp] theorem State.raiseFault_txWord (s : State) (k : FaultKind) :
    (s.raiseFault k).txWord = s.txWord := rfl
@[simp] theorem State.raiseFault_txBit (s : State) (k : FaultKind) :
    (s.raiseFault k).txBit = s.txBit := rfl
@[simp] theorem State.raiseFault_txT0 (s : State) (k : FaultKind) : (s.raiseFault k).txT0 = s.txT0 :=
    rfl
@[simp] theorem State.raiseFault_fault (s : State) (k : FaultKind) : (s.raiseFault k).fault = some k :=
    rfl
@[simp] theorem State.raiseFault_history (s : State) (k : FaultKind) :
    (s.raiseFault k).history = s.history := rfl
@[simp] theorem State.raiseFault_now (s : State) (k : FaultKind) : (s.raiseFault k).now = s.now :=
    rfl
@[simp] theorem State.raiseFault_oscOe (s : State) (k : FaultKind) :
    (s.raiseFault k).oscOe = s.oscOe := rfl
@[simp] theorem State.raiseFault_drvEn (s : State) (k : FaultKind) :
    (s.raiseFault k).drvEn = s.drvEn := rfl
@[simp] theorem State.raiseFault_resetIn (s : State) (k : FaultKind) :
    (s.raiseFault k).resetIn = s.resetIn := rfl
@[simp] theorem State.raiseFault_params (s : State) (k : FaultKind) :
    (s.raiseFault k).params = s.params := rfl
@[simp] theorem State.raiseFault_pending (s : State) (k : FaultKind) :
    (s.raiseFault k).pending = s.pending := rfl
@[simp] theorem State.raiseFault_turns (s : State) (k : FaultKind) :
    (s.raiseFault k).turns = s.turns := rfl

/-! ## `State.presentCommand` (R26) -/

@[simp] theorem State.presentCommand_cmd (s : State) (c : Word32) : (s.presentCommand c).cmd = c :=
    rfl
@[simp] theorem State.presentCommand_presented (s : State) (c : Word32) :
    (s.presentCommand c).presented = true := rfl
@[simp] theorem State.presentCommand_f (s : State) (c : Word32) : (s.presentCommand c).f = s.f :=
    rfl
@[simp] theorem State.presentCommand_x (s : State) (c : Word32) : (s.presentCommand c).x = s.x :=
    rfl
@[simp] theorem State.presentCommand_y (s : State) (c : Word32) : (s.presentCommand c).y = s.y :=
    rfl
@[simp] theorem State.presentCommand_z (s : State) (c : Word32) : (s.presentCommand c).z = s.z :=
    rfl
@[simp] theorem State.presentCommand_res (s : State) (c : Word32) : (s.presentCommand c).res = s.res :=
    rfl
@[simp] theorem State.presentCommand_data (s : State) (c : Word32) :
    (s.presentCommand c).data = s.data := rfl
@[simp] theorem State.presentCommand_clk (s : State) (c : Word32) : (s.presentCommand c).clk = s.clk :=
    rfl
@[simp] theorem State.presentCommand_ceN (s : State) (c : Word32) : (s.presentCommand c).ceN = s.ceN :=
    rfl
@[simp] theorem State.presentCommand_txPhase (s : State) (c : Word32) :
    (s.presentCommand c).txPhase = s.txPhase := rfl
@[simp] theorem State.presentCommand_txWord (s : State) (c : Word32) :
    (s.presentCommand c).txWord = s.txWord := rfl
@[simp] theorem State.presentCommand_txBit (s : State) (c : Word32) :
    (s.presentCommand c).txBit = s.txBit := rfl
@[simp] theorem State.presentCommand_txT0 (s : State) (c : Word32) :
    (s.presentCommand c).txT0 = s.txT0 := rfl
@[simp] theorem State.presentCommand_fault (s : State) (c : Word32) :
    (s.presentCommand c).fault = s.fault := rfl
@[simp] theorem State.presentCommand_history (s : State) (c : Word32) :
    (s.presentCommand c).history = s.history := rfl
@[simp] theorem State.presentCommand_now (s : State) (c : Word32) : (s.presentCommand c).now = s.now :=
    rfl
@[simp] theorem State.presentCommand_oscOe (s : State) (c : Word32) :
    (s.presentCommand c).oscOe = s.oscOe := rfl
@[simp] theorem State.presentCommand_drvEn (s : State) (c : Word32) :
    (s.presentCommand c).drvEn = s.drvEn := rfl
@[simp] theorem State.presentCommand_resetIn (s : State) (c : Word32) :
    (s.presentCommand c).resetIn = s.resetIn := rfl
@[simp] theorem State.presentCommand_params (s : State) (c : Word32) :
    (s.presentCommand c).params = s.params := rfl
@[simp] theorem State.presentCommand_pending (s : State) (c : Word32) :
    (s.presentCommand c).pending = s.pending := rfl
@[simp] theorem State.presentCommand_turns (s : State) (c : Word32) :
    (s.presentCommand c).turns = s.turns := rfl

/-! ## `State.advance` (R180) -/

@[simp] theorem State.advance_cmd (s : State) (dt : Nat) : (s.advance dt).cmd = s.cmd := rfl
@[simp] theorem State.advance_presented (s : State) (dt : Nat) :
    (s.advance dt).presented = s.presented := rfl
@[simp] theorem State.advance_f (s : State) (dt : Nat) : (s.advance dt).f = s.f := rfl
@[simp] theorem State.advance_x (s : State) (dt : Nat) : (s.advance dt).x = s.x := rfl
@[simp] theorem State.advance_y (s : State) (dt : Nat) : (s.advance dt).y = s.y := rfl
@[simp] theorem State.advance_z (s : State) (dt : Nat) : (s.advance dt).z = s.z := rfl
@[simp] theorem State.advance_res (s : State) (dt : Nat) : (s.advance dt).res = s.res := rfl
@[simp] theorem State.advance_data (s : State) (dt : Nat) : (s.advance dt).data = s.data := rfl
@[simp] theorem State.advance_clk (s : State) (dt : Nat) : (s.advance dt).clk = s.clk := rfl
@[simp] theorem State.advance_ceN (s : State) (dt : Nat) : (s.advance dt).ceN = s.ceN := rfl
@[simp] theorem State.advance_txPhase (s : State) (dt : Nat) : (s.advance dt).txPhase = s.txPhase :=
    rfl
@[simp] theorem State.advance_txWord (s : State) (dt : Nat) : (s.advance dt).txWord = s.txWord :=
    rfl
@[simp] theorem State.advance_txBit (s : State) (dt : Nat) : (s.advance dt).txBit = s.txBit := rfl
@[simp] theorem State.advance_txT0 (s : State) (dt : Nat) : (s.advance dt).txT0 = s.txT0 := rfl
@[simp] theorem State.advance_fault (s : State) (dt : Nat) : (s.advance dt).fault = s.fault := rfl
@[simp] theorem State.advance_history (s : State) (dt : Nat) : (s.advance dt).history = s.history :=
    rfl
@[simp] theorem State.advance_now (s : State) (dt : Nat) : (s.advance dt).now = s.now + dt := rfl
@[simp] theorem State.advance_oscOe (s : State) (dt : Nat) : (s.advance dt).oscOe = s.oscOe := rfl
@[simp] theorem State.advance_drvEn (s : State) (dt : Nat) : (s.advance dt).drvEn = s.drvEn := rfl
@[simp] theorem State.advance_resetIn (s : State) (dt : Nat) : (s.advance dt).resetIn = s.resetIn :=
    rfl
@[simp] theorem State.advance_params (s : State) (dt : Nat) : (s.advance dt).params = s.params :=
    rfl
@[simp] theorem State.advance_pending (s : State) (dt : Nat) : (s.advance dt).pending = s.pending :=
    rfl
@[simp] theorem State.advance_turns (s : State) (dt : Nat) : (s.advance dt).turns = s.turns := rfl

/-! ## `State.releaseReset` (R190) -/

@[simp] theorem State.releaseReset_cmd (s : State) : s.releaseReset.cmd = s.cmd := rfl
@[simp] theorem State.releaseReset_presented (s : State) : s.releaseReset.presented = s.presented :=
    rfl
@[simp] theorem State.releaseReset_f (s : State) : s.releaseReset.f = s.f := rfl
@[simp] theorem State.releaseReset_x (s : State) : s.releaseReset.x = s.x := rfl
@[simp] theorem State.releaseReset_y (s : State) : s.releaseReset.y = s.y := rfl
@[simp] theorem State.releaseReset_z (s : State) : s.releaseReset.z = s.z := rfl
@[simp] theorem State.releaseReset_res (s : State) : s.releaseReset.res = s.res := rfl
@[simp] theorem State.releaseReset_data (s : State) : s.releaseReset.data = s.data := rfl
@[simp] theorem State.releaseReset_clk (s : State) : s.releaseReset.clk = s.clk := rfl
@[simp] theorem State.releaseReset_ceN (s : State) : s.releaseReset.ceN = s.ceN := rfl
@[simp] theorem State.releaseReset_txPhase (s : State) : s.releaseReset.txPhase = s.txPhase := rfl
@[simp] theorem State.releaseReset_txWord (s : State) : s.releaseReset.txWord = s.txWord := rfl
@[simp] theorem State.releaseReset_txBit (s : State) : s.releaseReset.txBit = s.txBit := rfl
@[simp] theorem State.releaseReset_txT0 (s : State) : s.releaseReset.txT0 = s.txT0 := rfl
@[simp] theorem State.releaseReset_fault (s : State) : s.releaseReset.fault = s.fault := rfl
@[simp] theorem State.releaseReset_history (s : State) : s.releaseReset.history = s.history := rfl
@[simp] theorem State.releaseReset_now (s : State) : s.releaseReset.now = s.now := rfl
@[simp] theorem State.releaseReset_oscOe (s : State) : s.releaseReset.oscOe = s.oscOe := rfl
@[simp] theorem State.releaseReset_drvEn (s : State) : s.releaseReset.drvEn = s.drvEn := rfl
@[simp] theorem State.releaseReset_resetIn (s : State) : s.releaseReset.resetIn = false := rfl
@[simp] theorem State.releaseReset_params (s : State) : s.releaseReset.params = s.params := rfl
@[simp] theorem State.releaseReset_pending (s : State) : s.releaseReset.pending = s.pending := rfl
@[simp] theorem State.releaseReset_turns (s : State) : s.releaseReset.turns = s.turns := rfl

/-! ## `State.beginSend` (R140) -/

@[simp] theorem State.beginSend_cmd (s : State) : s.beginSend.cmd = s.cmd := rfl
@[simp] theorem State.beginSend_presented (s : State) : s.beginSend.presented = s.presented := rfl
@[simp] theorem State.beginSend_f (s : State) : s.beginSend.f = s.f := rfl
@[simp] theorem State.beginSend_x (s : State) : s.beginSend.x = s.x := rfl
@[simp] theorem State.beginSend_y (s : State) : s.beginSend.y = s.y := rfl
@[simp] theorem State.beginSend_z (s : State) : s.beginSend.z = s.z := rfl
@[simp] theorem State.beginSend_res (s : State) : s.beginSend.res = s.res := rfl
@[simp] theorem State.beginSend_data (s : State) : s.beginSend.data = s.data := rfl
@[simp] theorem State.beginSend_clk (s : State) : s.beginSend.clk = s.clk := rfl
@[simp] theorem State.beginSend_ceN (s : State) : s.beginSend.ceN = s.ceN := rfl
@[simp] theorem State.beginSend_txPhase (s : State) : s.beginSend.txPhase = .opening := rfl
@[simp] theorem State.beginSend_txWord (s : State) : s.beginSend.txWord = s.wordOperand := rfl
@[simp] theorem State.beginSend_txBit (s : State) : s.beginSend.txBit = s.txBit := rfl
@[simp] theorem State.beginSend_txT0 (s : State) : s.beginSend.txT0 = s.txT0 := rfl
@[simp] theorem State.beginSend_fault (s : State) : s.beginSend.fault = s.fault := rfl
@[simp] theorem State.beginSend_history (s : State) : s.beginSend.history = s.history := rfl
@[simp] theorem State.beginSend_now (s : State) : s.beginSend.now = s.now := rfl
@[simp] theorem State.beginSend_oscOe (s : State) : s.beginSend.oscOe = s.oscOe := rfl
@[simp] theorem State.beginSend_drvEn (s : State) : s.beginSend.drvEn = s.drvEn := rfl
@[simp] theorem State.beginSend_resetIn (s : State) : s.beginSend.resetIn = s.resetIn := rfl
@[simp] theorem State.beginSend_params (s : State) : s.beginSend.params = s.params := rfl
@[simp] theorem State.beginSend_pending (s : State) : s.beginSend.pending = s.pending := rfl
@[simp] theorem State.beginSend_turns (s : State) : s.beginSend.turns = s.turns := rfl

/-! ## `State.popTurn` (log 1) -/

@[simp] theorem State.popTurn_cmd (s : State) : s.popTurn.cmd = s.cmd := rfl
@[simp] theorem State.popTurn_presented (s : State) : s.popTurn.presented = s.presented := rfl
@[simp] theorem State.popTurn_f (s : State) : s.popTurn.f = s.f := rfl
@[simp] theorem State.popTurn_x (s : State) : s.popTurn.x = s.x := rfl
@[simp] theorem State.popTurn_y (s : State) : s.popTurn.y = s.y := rfl
@[simp] theorem State.popTurn_z (s : State) : s.popTurn.z = s.z := rfl
@[simp] theorem State.popTurn_res (s : State) : s.popTurn.res = s.res := rfl
@[simp] theorem State.popTurn_data (s : State) : s.popTurn.data = s.data := rfl
@[simp] theorem State.popTurn_clk (s : State) : s.popTurn.clk = s.clk := rfl
@[simp] theorem State.popTurn_ceN (s : State) : s.popTurn.ceN = s.ceN := rfl
@[simp] theorem State.popTurn_txPhase (s : State) : s.popTurn.txPhase = s.txPhase := rfl
@[simp] theorem State.popTurn_txWord (s : State) : s.popTurn.txWord = s.txWord := rfl
@[simp] theorem State.popTurn_txBit (s : State) : s.popTurn.txBit = s.txBit := rfl
@[simp] theorem State.popTurn_txT0 (s : State) : s.popTurn.txT0 = s.txT0 := rfl
@[simp] theorem State.popTurn_fault (s : State) : s.popTurn.fault = s.fault := rfl
@[simp] theorem State.popTurn_history (s : State) : s.popTurn.history = s.history := rfl
@[simp] theorem State.popTurn_now (s : State) : s.popTurn.now = s.now := rfl
@[simp] theorem State.popTurn_oscOe (s : State) : s.popTurn.oscOe = s.oscOe := rfl
@[simp] theorem State.popTurn_drvEn (s : State) : s.popTurn.drvEn = s.drvEn := rfl
@[simp] theorem State.popTurn_resetIn (s : State) : s.popTurn.resetIn = s.resetIn := rfl
@[simp] theorem State.popTurn_params (s : State) : s.popTurn.params = s.params := rfl
@[simp] theorem State.popTurn_pending (s : State) : s.popTurn.pending = s.pending := rfl
@[simp] theorem State.popTurn_turns (s : State) : s.popTurn.turns = s.turns.tail := rfl

/-! ## `State.popPending` (log 1) -/

@[simp] theorem State.popPending_cmd (s : State) : s.popPending.cmd = s.cmd := rfl
@[simp] theorem State.popPending_presented (s : State) : s.popPending.presented = s.presented := rfl
@[simp] theorem State.popPending_f (s : State) : s.popPending.f = s.f := rfl
@[simp] theorem State.popPending_x (s : State) : s.popPending.x = s.x := rfl
@[simp] theorem State.popPending_y (s : State) : s.popPending.y = s.y := rfl
@[simp] theorem State.popPending_z (s : State) : s.popPending.z = s.z := rfl
@[simp] theorem State.popPending_res (s : State) : s.popPending.res = s.res := rfl
@[simp] theorem State.popPending_data (s : State) : s.popPending.data = s.data := rfl
@[simp] theorem State.popPending_clk (s : State) : s.popPending.clk = s.clk := rfl
@[simp] theorem State.popPending_ceN (s : State) : s.popPending.ceN = s.ceN := rfl
@[simp] theorem State.popPending_txPhase (s : State) : s.popPending.txPhase = s.txPhase := rfl
@[simp] theorem State.popPending_txWord (s : State) : s.popPending.txWord = s.txWord := rfl
@[simp] theorem State.popPending_txBit (s : State) : s.popPending.txBit = s.txBit := rfl
@[simp] theorem State.popPending_txT0 (s : State) : s.popPending.txT0 = s.txT0 := rfl
@[simp] theorem State.popPending_fault (s : State) : s.popPending.fault = s.fault := rfl
@[simp] theorem State.popPending_history (s : State) : s.popPending.history = s.history := rfl
@[simp] theorem State.popPending_now (s : State) : s.popPending.now = s.now := rfl
@[simp] theorem State.popPending_oscOe (s : State) : s.popPending.oscOe = s.oscOe := rfl
@[simp] theorem State.popPending_drvEn (s : State) : s.popPending.drvEn = s.drvEn := rfl
@[simp] theorem State.popPending_resetIn (s : State) : s.popPending.resetIn = s.resetIn := rfl
@[simp] theorem State.popPending_params (s : State) : s.popPending.params = s.params := rfl
@[simp] theorem State.popPending_pending (s : State) : s.popPending.pending = s.pending.tail := rfl
@[simp] theorem State.popPending_turns (s : State) : s.popPending.turns = s.turns := rfl

/-! ## `State.enter` (R142) -/

@[simp] theorem State.enter_cmd (s : State) (p : Phase) (bit : BitVec 4) :
    (s.enter p bit).cmd = s.cmd := rfl
@[simp] theorem State.enter_presented (s : State) (p : Phase) (bit : BitVec 4) :
    (s.enter p bit).presented = s.presented := rfl
@[simp] theorem State.enter_f (s : State) (p : Phase) (bit : BitVec 4) : (s.enter p bit).f = s.f :=
    rfl
@[simp] theorem State.enter_x (s : State) (p : Phase) (bit : BitVec 4) : (s.enter p bit).x = s.x :=
    rfl
@[simp] theorem State.enter_y (s : State) (p : Phase) (bit : BitVec 4) : (s.enter p bit).y = s.y :=
    rfl
@[simp] theorem State.enter_z (s : State) (p : Phase) (bit : BitVec 4) : (s.enter p bit).z = s.z :=
    rfl
@[simp] theorem State.enter_res (s : State) (p : Phase) (bit : BitVec 4) :
    (s.enter p bit).res = s.res := rfl
@[simp] theorem State.enter_data (s : State) (p : Phase) (bit : BitVec 4) :
    (s.enter p bit).data = s.data := rfl
@[simp] theorem State.enter_clk (s : State) (p : Phase) (bit : BitVec 4) :
    (s.enter p bit).clk = s.clk := rfl
@[simp] theorem State.enter_ceN (s : State) (p : Phase) (bit : BitVec 4) :
    (s.enter p bit).ceN = s.ceN := rfl
@[simp] theorem State.enter_txPhase (s : State) (p : Phase) (bit : BitVec 4) :
    (s.enter p bit).txPhase = p := rfl
@[simp] theorem State.enter_txWord (s : State) (p : Phase) (bit : BitVec 4) :
    (s.enter p bit).txWord = s.txWord := rfl
@[simp] theorem State.enter_txBit (s : State) (p : Phase) (bit : BitVec 4) :
    (s.enter p bit).txBit = bit := rfl
@[simp] theorem State.enter_txT0 (s : State) (p : Phase) (bit : BitVec 4) :
    (s.enter p bit).txT0 = if p.waits then s.now else s.txT0 := rfl
@[simp] theorem State.enter_fault (s : State) (p : Phase) (bit : BitVec 4) :
    (s.enter p bit).fault = s.fault := rfl
@[simp] theorem State.enter_history (s : State) (p : Phase) (bit : BitVec 4) :
    (s.enter p bit).history = s.history := rfl
@[simp] theorem State.enter_now (s : State) (p : Phase) (bit : BitVec 4) :
    (s.enter p bit).now = s.now := rfl
@[simp] theorem State.enter_oscOe (s : State) (p : Phase) (bit : BitVec 4) :
    (s.enter p bit).oscOe = s.oscOe := rfl
@[simp] theorem State.enter_drvEn (s : State) (p : Phase) (bit : BitVec 4) :
    (s.enter p bit).drvEn = s.drvEn := rfl
@[simp] theorem State.enter_resetIn (s : State) (p : Phase) (bit : BitVec 4) :
    (s.enter p bit).resetIn = s.resetIn := rfl
@[simp] theorem State.enter_params (s : State) (p : Phase) (bit : BitVec 4) :
    (s.enter p bit).params = s.params := rfl
@[simp] theorem State.enter_pending (s : State) (p : Phase) (bit : BitVec 4) :
    (s.enter p bit).pending = s.pending := rfl
@[simp] theorem State.enter_turns (s : State) (p : Phase) (bit : BitVec 4) :
    (s.enter p bit).turns = s.turns := rfl

/-! ## `State.setLevel` and `State.writeLine` (R55): the lines are touched, and the history by the latter -/

@[simp] theorem State.setLevel_cmd (s : State) (l : Line) (b : Level) :
    (s.setLevel l b).cmd = s.cmd := by cases l <;> rfl
@[simp] theorem State.setLevel_presented (s : State) (l : Line) (b : Level) :
    (s.setLevel l b).presented = s.presented := by cases l <;> rfl
@[simp] theorem State.setLevel_f (s : State) (l : Line) (b : Level) :
    (s.setLevel l b).f = s.f := by cases l <;> rfl
@[simp] theorem State.setLevel_x (s : State) (l : Line) (b : Level) :
    (s.setLevel l b).x = s.x := by cases l <;> rfl
@[simp] theorem State.setLevel_y (s : State) (l : Line) (b : Level) :
    (s.setLevel l b).y = s.y := by cases l <;> rfl
@[simp] theorem State.setLevel_z (s : State) (l : Line) (b : Level) :
    (s.setLevel l b).z = s.z := by cases l <;> rfl
@[simp] theorem State.setLevel_res (s : State) (l : Line) (b : Level) :
    (s.setLevel l b).res = s.res := by cases l <;> rfl
@[simp] theorem State.setLevel_txPhase (s : State) (l : Line) (b : Level) :
    (s.setLevel l b).txPhase = s.txPhase := by cases l <;> rfl
@[simp] theorem State.setLevel_txWord (s : State) (l : Line) (b : Level) :
    (s.setLevel l b).txWord = s.txWord := by cases l <;> rfl
@[simp] theorem State.setLevel_txBit (s : State) (l : Line) (b : Level) :
    (s.setLevel l b).txBit = s.txBit := by cases l <;> rfl
@[simp] theorem State.setLevel_txT0 (s : State) (l : Line) (b : Level) :
    (s.setLevel l b).txT0 = s.txT0 := by cases l <;> rfl
@[simp] theorem State.setLevel_fault (s : State) (l : Line) (b : Level) :
    (s.setLevel l b).fault = s.fault := by cases l <;> rfl
@[simp] theorem State.setLevel_history (s : State) (l : Line) (b : Level) :
    (s.setLevel l b).history = s.history := by cases l <;> rfl
@[simp] theorem State.setLevel_now (s : State) (l : Line) (b : Level) :
    (s.setLevel l b).now = s.now := by cases l <;> rfl
@[simp] theorem State.setLevel_oscOe (s : State) (l : Line) (b : Level) :
    (s.setLevel l b).oscOe = s.oscOe := by cases l <;> rfl
@[simp] theorem State.setLevel_drvEn (s : State) (l : Line) (b : Level) :
    (s.setLevel l b).drvEn = s.drvEn := by cases l <;> rfl
@[simp] theorem State.setLevel_resetIn (s : State) (l : Line) (b : Level) :
    (s.setLevel l b).resetIn = s.resetIn := by cases l <;> rfl
@[simp] theorem State.setLevel_params (s : State) (l : Line) (b : Level) :
    (s.setLevel l b).params = s.params := by cases l <;> rfl
@[simp] theorem State.setLevel_pending (s : State) (l : Line) (b : Level) :
    (s.setLevel l b).pending = s.pending := by cases l <;> rfl
@[simp] theorem State.setLevel_turns (s : State) (l : Line) (b : Level) :
    (s.setLevel l b).turns = s.turns := by cases l <;> rfl
@[simp] theorem State.writeLine_cmd (s : State) (l : Line) (b : Level) :
    (s.writeLine l b).cmd = s.cmd := by cases l <;> rfl
@[simp] theorem State.writeLine_presented (s : State) (l : Line) (b : Level) :
    (s.writeLine l b).presented = s.presented := by cases l <;> rfl
@[simp] theorem State.writeLine_f (s : State) (l : Line) (b : Level) :
    (s.writeLine l b).f = s.f := by cases l <;> rfl
@[simp] theorem State.writeLine_x (s : State) (l : Line) (b : Level) :
    (s.writeLine l b).x = s.x := by cases l <;> rfl
@[simp] theorem State.writeLine_y (s : State) (l : Line) (b : Level) :
    (s.writeLine l b).y = s.y := by cases l <;> rfl
@[simp] theorem State.writeLine_z (s : State) (l : Line) (b : Level) :
    (s.writeLine l b).z = s.z := by cases l <;> rfl
@[simp] theorem State.writeLine_res (s : State) (l : Line) (b : Level) :
    (s.writeLine l b).res = s.res := by cases l <;> rfl
@[simp] theorem State.writeLine_txPhase (s : State) (l : Line) (b : Level) :
    (s.writeLine l b).txPhase = s.txPhase := by cases l <;> rfl
@[simp] theorem State.writeLine_txWord (s : State) (l : Line) (b : Level) :
    (s.writeLine l b).txWord = s.txWord := by cases l <;> rfl
@[simp] theorem State.writeLine_txBit (s : State) (l : Line) (b : Level) :
    (s.writeLine l b).txBit = s.txBit := by cases l <;> rfl
@[simp] theorem State.writeLine_txT0 (s : State) (l : Line) (b : Level) :
    (s.writeLine l b).txT0 = s.txT0 := by cases l <;> rfl
@[simp] theorem State.writeLine_fault (s : State) (l : Line) (b : Level) :
    (s.writeLine l b).fault = s.fault := by cases l <;> rfl
@[simp] theorem State.writeLine_now (s : State) (l : Line) (b : Level) :
    (s.writeLine l b).now = s.now := by cases l <;> rfl
@[simp] theorem State.writeLine_oscOe (s : State) (l : Line) (b : Level) :
    (s.writeLine l b).oscOe = s.oscOe := by cases l <;> rfl
@[simp] theorem State.writeLine_drvEn (s : State) (l : Line) (b : Level) :
    (s.writeLine l b).drvEn = s.drvEn := by cases l <;> rfl
@[simp] theorem State.writeLine_resetIn (s : State) (l : Line) (b : Level) :
    (s.writeLine l b).resetIn = s.resetIn := by cases l <;> rfl
@[simp] theorem State.writeLine_params (s : State) (l : Line) (b : Level) :
    (s.writeLine l b).params = s.params := by cases l <;> rfl
@[simp] theorem State.writeLine_pending (s : State) (l : Line) (b : Level) :
    (s.writeLine l b).pending = s.pending := by cases l <;> rfl
@[simp] theorem State.writeLine_turns (s : State) (l : Line) (b : Level) :
    (s.writeLine l b).turns = s.turns := by cases l <;> rfl
@[simp] theorem State.writeLine_history (s : State) (l : Line) (b : Level) :
    (s.writeLine l b).history = s.history ++ [⟨l, b, s.now⟩] := by cases l <;> rfl
@[simp] theorem State.writeLine_data (s : State) (l : Line) (b : Level) :
    (s.writeLine l b).data = if l = .data then b else s.data := by cases l <;> rfl
@[simp] theorem State.writeLine_clk (s : State) (l : Line) (b : Level) :
    (s.writeLine l b).clk = if l = .clk then b else s.clk := by cases l <;> rfl
@[simp] theorem State.writeLine_ceN (s : State) (l : Line) (b : Level) :
    (s.writeLine l b).ceN = if l = .ceN then b else s.ceN := by cases l <;> rfl

/-! ## `State.setIntPort` (R23): only the integer ports -/

@[simp] theorem State.setIntPort_cmd (s : State) (v : Word32) (p : IntPort) :
    (s.setIntPort v p).cmd = s.cmd := by cases p <;> rfl
@[simp] theorem State.setIntPort_presented (s : State) (v : Word32) (p : IntPort) :
    (s.setIntPort v p).presented = s.presented := by cases p <;> rfl
@[simp] theorem State.setIntPort_f (s : State) (v : Word32) (p : IntPort) :
    (s.setIntPort v p).f = s.f := by cases p <;> rfl
@[simp] theorem State.setIntPort_res (s : State) (v : Word32) (p : IntPort) :
    (s.setIntPort v p).res = s.res := by cases p <;> rfl
@[simp] theorem State.setIntPort_data (s : State) (v : Word32) (p : IntPort) :
    (s.setIntPort v p).data = s.data := by cases p <;> rfl
@[simp] theorem State.setIntPort_clk (s : State) (v : Word32) (p : IntPort) :
    (s.setIntPort v p).clk = s.clk := by cases p <;> rfl
@[simp] theorem State.setIntPort_ceN (s : State) (v : Word32) (p : IntPort) :
    (s.setIntPort v p).ceN = s.ceN := by cases p <;> rfl
@[simp] theorem State.setIntPort_txPhase (s : State) (v : Word32) (p : IntPort) :
    (s.setIntPort v p).txPhase = s.txPhase := by cases p <;> rfl
@[simp] theorem State.setIntPort_txWord (s : State) (v : Word32) (p : IntPort) :
    (s.setIntPort v p).txWord = s.txWord := by cases p <;> rfl
@[simp] theorem State.setIntPort_txBit (s : State) (v : Word32) (p : IntPort) :
    (s.setIntPort v p).txBit = s.txBit := by cases p <;> rfl
@[simp] theorem State.setIntPort_txT0 (s : State) (v : Word32) (p : IntPort) :
    (s.setIntPort v p).txT0 = s.txT0 := by cases p <;> rfl
@[simp] theorem State.setIntPort_fault (s : State) (v : Word32) (p : IntPort) :
    (s.setIntPort v p).fault = s.fault := by cases p <;> rfl
@[simp] theorem State.setIntPort_history (s : State) (v : Word32) (p : IntPort) :
    (s.setIntPort v p).history = s.history := by cases p <;> rfl
@[simp] theorem State.setIntPort_now (s : State) (v : Word32) (p : IntPort) :
    (s.setIntPort v p).now = s.now := by cases p <;> rfl
@[simp] theorem State.setIntPort_oscOe (s : State) (v : Word32) (p : IntPort) :
    (s.setIntPort v p).oscOe = s.oscOe := by cases p <;> rfl
@[simp] theorem State.setIntPort_drvEn (s : State) (v : Word32) (p : IntPort) :
    (s.setIntPort v p).drvEn = s.drvEn := by cases p <;> rfl
@[simp] theorem State.setIntPort_resetIn (s : State) (v : Word32) (p : IntPort) :
    (s.setIntPort v p).resetIn = s.resetIn := by cases p <;> rfl
@[simp] theorem State.setIntPort_params (s : State) (v : Word32) (p : IntPort) :
    (s.setIntPort v p).params = s.params := by cases p <;> rfl
@[simp] theorem State.setIntPort_pending (s : State) (v : Word32) (p : IntPort) :
    (s.setIntPort v p).pending = s.pending := by cases p <;> rfl
@[simp] theorem State.setIntPort_turns (s : State) (v : Word32) (p : IntPort) :
    (s.setIntPort v p).turns = s.turns := by cases p <;> rfl

/-! ## Reset (R190) -/

@[simp] theorem State.resetLine_cmd (s : State) (l : Line) (b : Level) :
    (s.resetLine l b).cmd = s.cmd := by unfold State.resetLine; split <;> simp
@[simp] theorem State.resetLine_presented (s : State) (l : Line) (b : Level) :
    (s.resetLine l b).presented = s.presented := by unfold State.resetLine; split <;> simp
@[simp] theorem State.resetLine_f (s : State) (l : Line) (b : Level) :
    (s.resetLine l b).f = s.f := by unfold State.resetLine; split <;> simp
@[simp] theorem State.resetLine_x (s : State) (l : Line) (b : Level) :
    (s.resetLine l b).x = s.x := by unfold State.resetLine; split <;> simp
@[simp] theorem State.resetLine_y (s : State) (l : Line) (b : Level) :
    (s.resetLine l b).y = s.y := by unfold State.resetLine; split <;> simp
@[simp] theorem State.resetLine_z (s : State) (l : Line) (b : Level) :
    (s.resetLine l b).z = s.z := by unfold State.resetLine; split <;> simp
@[simp] theorem State.resetLine_res (s : State) (l : Line) (b : Level) :
    (s.resetLine l b).res = s.res := by unfold State.resetLine; split <;> simp
@[simp] theorem State.resetLine_txPhase (s : State) (l : Line) (b : Level) :
    (s.resetLine l b).txPhase = s.txPhase := by unfold State.resetLine; split <;> simp
@[simp] theorem State.resetLine_txWord (s : State) (l : Line) (b : Level) :
    (s.resetLine l b).txWord = s.txWord := by unfold State.resetLine; split <;> simp
@[simp] theorem State.resetLine_txBit (s : State) (l : Line) (b : Level) :
    (s.resetLine l b).txBit = s.txBit := by unfold State.resetLine; split <;> simp
@[simp] theorem State.resetLine_txT0 (s : State) (l : Line) (b : Level) :
    (s.resetLine l b).txT0 = s.txT0 := by unfold State.resetLine; split <;> simp
@[simp] theorem State.resetLine_fault (s : State) (l : Line) (b : Level) :
    (s.resetLine l b).fault = s.fault := by unfold State.resetLine; split <;> simp
@[simp] theorem State.resetLine_now (s : State) (l : Line) (b : Level) :
    (s.resetLine l b).now = s.now := by unfold State.resetLine; split <;> simp
@[simp] theorem State.resetLine_oscOe (s : State) (l : Line) (b : Level) :
    (s.resetLine l b).oscOe = s.oscOe := by unfold State.resetLine; split <;> simp
@[simp] theorem State.resetLine_drvEn (s : State) (l : Line) (b : Level) :
    (s.resetLine l b).drvEn = s.drvEn := by unfold State.resetLine; split <;> simp
@[simp] theorem State.resetLine_resetIn (s : State) (l : Line) (b : Level) :
    (s.resetLine l b).resetIn = s.resetIn := by unfold State.resetLine; split <;> simp
@[simp] theorem State.resetLine_params (s : State) (l : Line) (b : Level) :
    (s.resetLine l b).params = s.params := by unfold State.resetLine; split <;> simp
@[simp] theorem State.resetLine_pending (s : State) (l : Line) (b : Level) :
    (s.resetLine l b).pending = s.pending := by unfold State.resetLine; split <;> simp
@[simp] theorem State.resetLine_turns (s : State) (l : Line) (b : Level) :
    (s.resetLine l b).turns = s.turns := by unfold State.resetLine; split <;> simp
@[simp] theorem State.resetLines_cmd (s : State) : s.resetLines.cmd = s.cmd := by
  simp [State.resetLines]
@[simp] theorem State.resetLines_presented (s : State) : s.resetLines.presented = s.presented := by
  simp [State.resetLines]
@[simp] theorem State.resetLines_f (s : State) : s.resetLines.f = s.f := by
  simp [State.resetLines]
@[simp] theorem State.resetLines_x (s : State) : s.resetLines.x = s.x := by
  simp [State.resetLines]
@[simp] theorem State.resetLines_y (s : State) : s.resetLines.y = s.y := by
  simp [State.resetLines]
@[simp] theorem State.resetLines_z (s : State) : s.resetLines.z = s.z := by
  simp [State.resetLines]
@[simp] theorem State.resetLines_res (s : State) : s.resetLines.res = s.res := by
  simp [State.resetLines]
@[simp] theorem State.resetLines_txPhase (s : State) : s.resetLines.txPhase = s.txPhase := by
  simp [State.resetLines]
@[simp] theorem State.resetLines_txWord (s : State) : s.resetLines.txWord = s.txWord := by
  simp [State.resetLines]
@[simp] theorem State.resetLines_txBit (s : State) : s.resetLines.txBit = s.txBit := by
  simp [State.resetLines]
@[simp] theorem State.resetLines_txT0 (s : State) : s.resetLines.txT0 = s.txT0 := by
  simp [State.resetLines]
@[simp] theorem State.resetLines_fault (s : State) : s.resetLines.fault = s.fault := by
  simp [State.resetLines]
@[simp] theorem State.resetLines_now (s : State) : s.resetLines.now = s.now := by
  simp [State.resetLines]
@[simp] theorem State.resetLines_oscOe (s : State) : s.resetLines.oscOe = s.oscOe := by
  simp [State.resetLines]
@[simp] theorem State.resetLines_drvEn (s : State) : s.resetLines.drvEn = s.drvEn := by
  simp [State.resetLines]
@[simp] theorem State.resetLines_resetIn (s : State) : s.resetLines.resetIn = s.resetIn := by
  simp [State.resetLines]
@[simp] theorem State.resetLines_params (s : State) : s.resetLines.params = s.params := by
  simp [State.resetLines]
@[simp] theorem State.resetLines_pending (s : State) : s.resetLines.pending = s.pending := by
  simp [State.resetLines]
@[simp] theorem State.resetLines_turns (s : State) : s.resetLines.turns = s.turns := by
  simp [State.resetLines]


theorem State.resetLine_level (s : State) (l : Line) (b : Level) : (s.resetLine l b).level l = b := by
  unfold State.resetLine
  split
  · assumption
  · cases l <;> rfl

theorem State.resetLine_level_ne (s : State) {l m : Line} (b : Level) (h : m ≠ l) :
    (s.resetLine l b).level m = s.level m := by
  unfold State.resetLine
  split
  · rfl
  · cases l <;> cases m <;> first | rfl | exact absurd rfl h

@[simp] theorem State.resetLines_data (s : State) : s.resetLines.data = false := by
  change s.resetLines.level .data = false
  unfold State.resetLines
  rw [resetLine_level_ne _ _ (by decide), resetLine_level_ne _ _ (by decide)]
  exact resetLine_level _ _ _

@[simp] theorem State.resetLines_clk (s : State) : s.resetLines.clk = false := by
  change s.resetLines.level .clk = false
  unfold State.resetLines
  rw [resetLine_level_ne _ _ (by decide)]
  exact resetLine_level _ _ _

@[simp] theorem State.resetLines_ceN (s : State) : s.resetLines.ceN = true := by
  change s.resetLines.level .ceN = true
  exact resetLine_level _ _ _

@[simp] theorem State.assertReset_cmd (s : State) : s.assertReset.cmd = s.cmd :=
  State.resetLines_cmd s
@[simp] theorem State.assertReset_presented (s : State) : s.assertReset.presented = s.presented :=
  State.resetLines_presented s
@[simp] theorem State.assertReset_f (s : State) : s.assertReset.f = s.f :=
  State.resetLines_f s
@[simp] theorem State.assertReset_x (s : State) : s.assertReset.x = s.x :=
  State.resetLines_x s
@[simp] theorem State.assertReset_y (s : State) : s.assertReset.y = s.y :=
  State.resetLines_y s
@[simp] theorem State.assertReset_z (s : State) : s.assertReset.z = s.z :=
  State.resetLines_z s
@[simp] theorem State.assertReset_res (s : State) : s.assertReset.res = none :=
  rfl
@[simp] theorem State.assertReset_data (s : State) : s.assertReset.data = false :=
  State.resetLines_data s
@[simp] theorem State.assertReset_clk (s : State) : s.assertReset.clk = false :=
  State.resetLines_clk s
@[simp] theorem State.assertReset_ceN (s : State) : s.assertReset.ceN = true :=
  State.resetLines_ceN s
@[simp] theorem State.assertReset_txPhase (s : State) : s.assertReset.txPhase = .idle :=
  rfl
@[simp] theorem State.assertReset_txWord (s : State) : s.assertReset.txWord = 0 :=
  rfl
@[simp] theorem State.assertReset_txBit (s : State) : s.assertReset.txBit = 0 :=
  rfl
@[simp] theorem State.assertReset_txT0 (s : State) : s.assertReset.txT0 = 0 :=
  rfl
@[simp] theorem State.assertReset_fault (s : State) : s.assertReset.fault = none :=
  rfl
@[simp] theorem State.assertReset_history (s : State) : s.assertReset.history = s.resetLines.history :=
  rfl
@[simp] theorem State.assertReset_now (s : State) : s.assertReset.now = s.now :=
  State.resetLines_now s
@[simp] theorem State.assertReset_oscOe (s : State) : s.assertReset.oscOe = s.oscOe :=
  State.resetLines_oscOe s
@[simp] theorem State.assertReset_drvEn (s : State) : s.assertReset.drvEn = s.drvEn :=
  State.resetLines_drvEn s
@[simp] theorem State.assertReset_resetIn (s : State) : s.assertReset.resetIn = true :=
  rfl
@[simp] theorem State.assertReset_params (s : State) : s.assertReset.params = s.params :=
  State.resetLines_params s
@[simp] theorem State.assertReset_pending (s : State) : s.assertReset.pending = s.pending :=
  State.resetLines_pending s
@[simp] theorem State.assertReset_turns (s : State) : s.assertReset.turns = s.turns :=
  State.resetLines_turns s

end Sys2Proof.Machine
end

