-- ==== Sys2Proof/Laws/Ops.lean ====
section
/-! SUPPORT. What each shared operation can do, said once: acceptance, the encoder's finish, and the status
signals. -/

namespace Sys2Proof.Machine

theorem State.canAccept_iff (s : State) :
    s.canAccept = true ↔ s.txPhase = .idle ∧ s.fault = none ∧ s.resetIn = false := by
  simp [State.canAccept, State.ready, and_assoc]

@[simp] theorem State.take_octaveOperand (s : State) : s.take.octaveOperand = sint s.x := rfl
@[simp] theorem State.take_wordOperand (s : State) : s.take.wordOperand = s.x.extractLsb' 0 16 := rfl

/-- A command the block can accept has its effect on the state it is taken from (R26). -/
theorem accept_of_canAccept {s : State} (h : s.canAccept = true) (effect : State → State) :
    accept s effect = .next (effect s.take) := by simp [accept, h]

/-- A command the block cannot accept is held (R179). -/
theorem accept_of_not {s : State} (h : s.canAccept = false) (effect : State → State) :
    accept s effect = .next s := by simp [accept, h]

/-- An acceptance step that answers a next state: the command had its effect, or it was held. -/
theorem accept_cases {s t : State} {effect : State → State} (h : accept s effect = .next t) :
    (s.canAccept = true ∧ t = effect s.take) ∨ (s.canAccept = false ∧ t = s) := by
  unfold accept at h
  split at h
  · exact .inl ⟨‹_›, by cases h; rfl⟩
  · rename_i hc
    exact .inr ⟨by simpa using hc, by cases h; rfl⟩

/-- What an encoder command's finish can be (R100). -/
theorem State.finish_cases (s : State) (r : EncoderResult) :
    (∃ v, r = .value v ∧ s.finish r = s.writeRes v) ∨
      (∃ k, r = .raises k ∧ s.finish r = s.raiseFault k) := by
  cases r with
  | value v => exact .inl ⟨v, rfl, rfl⟩
  | raises k => exact .inr ⟨k, rfl, rfl⟩

/-- What any command's acceptance can do (R100, R140, R173): a result, a fault, or the start of a SEND. -/
theorem exec_cases {i : Instr} {s t : State} (h : exec i s = .next t) :
    (s.canAccept = false ∧ t = s) ∨
      (s.canAccept = true ∧
        ((∃ v, t = s.take.writeRes v) ∨ (∃ k, t = s.take.raiseFault k) ∨
          t = s.take.beginSend)) := by
  have enc : ∀ r : State → EncoderResult, (accept s fun s => s.finish (r s)) = .next t →
      (s.canAccept = false ∧ t = s) ∨
        (s.canAccept = true ∧
          ((∃ v, t = s.take.writeRes v) ∨ (∃ k, t = s.take.raiseFault k) ∨
            t = s.take.beginSend)) := by
    intro r hr
    rcases accept_cases hr with ⟨hc, rfl⟩ | hn
    · rcases s.take.finish_cases (r s.take) with ⟨v, -, hv⟩ | ⟨k, -, hk⟩
      · exact .inr ⟨hc, .inl ⟨v, hv⟩⟩
      · exact .inr ⟨hc, .inr (.inl ⟨k, hk⟩)⟩
    · exact .inl hn
  cases i with
  | octave => exact enc (fun s => octaveResult s.params s.f) h
  | dac => exact enc (fun s => dacResult s.params s.f s.octaveOperand) h
  | pack => exact enc (fun s => packResult (sint s.x) (sint s.y) (sint s.z)) h
  | encode => exact enc (fun s => encodeResult s.params s.f) h
  | send =>
    change accept s State.beginSend = .next t at h
    rcases accept_cases h with ⟨hc, rfl⟩ | hn
    · exact .inr ⟨hc, .inr (.inr rfl)⟩
    · exact .inl hn

/-- A command always answers a next state: it is accepted or held, never stopped. -/
theorem exec_next (i : Instr) (s : State) : ∃ t, exec i s = .next t := by
  cases i <;> simp only [exec, execOctave, execDac, execPack, execEncode, execSend, accept] <;>
    split <;> exact ⟨_, rfl⟩

end Sys2Proof.Machine
end

