-- ==== Sys2Proof/Laws/PerInstr.lean ====
section
/-! SUPPORT. A statement about every command as syntax: the fields of its encoded word (R70, R71). -/

namespace Sys2Proof.Laws.EncodedFields

/-- The reserved field of the command's word is 0, its selector is the command's, and the word is below 5. -/
def Statement (i : Instr) : Prop :=
  i.wellFormed = true ∧ rsvField (encode i) = 0 ∧ opField (encode i) = opOf i ∧ (encode i).toNat < 5

theorem octave : Statement .octave := by unfold Statement; decide
theorem dac : Statement .dac := by unfold Statement; decide
theorem pack : Statement .pack := by unfold Statement; decide
theorem encode : Statement .encode := by unfold Statement; decide
theorem send : Statement .send := by unfold Statement; decide

end Sys2Proof.Laws.EncodedFields
end

