-- ==== Sys2Proof/Laws/Step.lean ====
section
/-! SUPPORT. What one step can do, said once (`step_cases`), and the spec lemmas of the step's parts. -/

namespace Sys2Proof.Machine

@[simp] theorem State.popTurn_canAccept (s : State) : s.popTurn.canAccept = s.canAccept := rfl
@[simp] theorem State.popTurn_txEnabled (s : State) : s.popTurn.txEnabled = s.txEnabled := rfl
@[simp] theorem State.popTurn_blockEnabled (s : State) : s.popTurn.blockEnabled = s.blockEnabled := rfl
@[simp] theorem State.popTurn_lastCompleted (s : State) : s.popTurn.lastCompleted = s.lastCompleted := rfl

/-- Where no turn is listed there is none to use up. -/
theorem State.popTurn_of_nil {s : State} (h : s.turns = []) : s.popTurn = s := by
  cases s; cases h; rfl

/-- When the block has a step enabled (R26, R142, R178, R190). -/
theorem State.blockEnabled_iff (s : State) : s.blockEnabled = true ↔
    (s.canAccept = true ∧ s.presented = true) ∨
      (s.resetIn = false ∧ s.txPhase ≠ .idle ∧ s.txEnabled = true) := by
  unfold State.blockEnabled
  rw [State.canAccept_iff]
  split
  · simp_all
  · split <;> simp_all [State.canAccept_iff]

/-- What the block's own step can do (R20, R178): a result, a fault, the start of a SEND, or one step of the
transmitter. -/
theorem blockStep_cases {s t : State} (he : s.blockEnabled = true) (h : blockStep s = .next t) :
    (s.canAccept = true ∧ s.presented = true ∧
        ((∃ v, t = s.take.writeRes v) ∨ (∃ k, t = s.take.raiseFault k) ∨ t = s.take.beginSend)) ∨
      (s.resetIn = false ∧ s.txPhase ≠ .idle ∧ s.txEnabled = true ∧ t = s.txStep) := by
  rcases (State.blockEnabled_iff s).1 he with ⟨hc, hp⟩ | ⟨hr, hi, htx⟩
  · have hidle := ((State.canAccept_iff s).1 hc).1
    rw [blockStep, if_pos hidle, acceptCommand] at h
    refine .inl ⟨hc, hp, ?_⟩
    split at h
    · rcases exec_cases h with ⟨hn, -⟩ | ⟨-, hd⟩
      · rw [hc] at hn; cases hn
      · exact hd
    · rw [accept_of_canAccept hc] at h
      cases h
      exact .inr (.inl ⟨_, rfl⟩)
  · rw [blockStep, if_neg hi] at h
    cases h
    exact .inr ⟨hr, hi, htx, rfl⟩

/-- What a host move can do (R206). -/
theorem hostMove_cases {a : HostMove} {s t : State} (h : hostMove a s = .next t) :
    (∃ v, a = .setF v ∧ t = { s with f := v }) ∨
      (∃ v p, (a = .setInt p v ∨ a = .copyRes p ∧ s.res = some v) ∧ t = s.setIntPort v p) ∨
      (∃ c, a = .present c ∧ t = s.presentCommand c) ∨
      (∃ b, a = .setOscOe b ∧ t = { s with oscOe := hostLine b }) ∨
      (∃ b, a = .setDrvEn b ∧ t = { s with drvEn := hostLine b }) ∨
      (a = .assertReset ∧ t = s.assertReset) ∨ (a = .releaseReset ∧ t = s.releaseReset) := by
  cases a with
  | setF v => cases h; exact .inl ⟨v, rfl, rfl⟩
  | setInt p v => cases h; exact .inr (.inl ⟨v, p, .inl rfl, rfl⟩)
  | copyRes p =>
    simp only [hostMove] at h
    split at h
    · rename_i v hv
      cases h
      exact .inr (.inl ⟨v, p, .inr ⟨rfl, hv⟩, rfl⟩)
    · cases h
  | present c => cases h; exact .inr (.inr (.inl ⟨c, rfl, rfl⟩))
  | setOscOe b => cases h; exact .inr (.inr (.inr (.inl ⟨b, rfl, rfl⟩)))
  | setDrvEn b => cases h; exact .inr (.inr (.inr (.inr (.inl ⟨b, rfl, rfl⟩))))
  | assertReset => cases h; exact .inr (.inr (.inr (.inr (.inr (.inl ⟨rfl, rfl⟩)))))
  | releaseReset => cases h; exact .inr (.inr (.inr (.inr (.inr (.inr ⟨rfl, rfl⟩)))))

/-- When the host makes a move in the coming step. -/
theorem State.nextHostMove_iff {s : State} {a : HostMove} : s.nextHostMove = some a ↔
    ∃ w p, s.turns = .host :: w ∧ s.pending = .move a :: p := by
  unfold State.nextHostMove
  split
  · rename_i b _ hw hp
    constructor
    · intro h; cases h; exact ⟨_, _, hw, hp⟩
    · rintro ⟨_, _, -, hp'⟩; rw [hp] at hp'; cases hp'; rfl
  · rename_i hne
    constructor
    · intro h; cases h
    · rintro ⟨_, _, hw, hp⟩; exact absurd hp (hne _ _ _ hw)

/-- The step in which the host makes a move. -/
theorem step_of_nextHostMove {s : State} {a : HostMove} (h : s.nextHostMove = some a) :
    step s = hostMove a s.popTurn.popPending := by
  obtain ⟨w, p, hw, hp⟩ := State.nextHostMove_iff.1 h
  have hp' : s.popTurn.pending = .move a :: p := hp
  rw [step, systemStep, hw, List.headD_cons, takeTurn, hostTurn, hp']

/-- The step in which the turn is the block's. -/
theorem step_of_blockTurn {s : State} (h : s.turns.headD .block = .block) : step s = letBlock s.popTurn := by
  rw [step, systemStep, h, takeTurn]

/-- The step in which the time base advances. -/
theorem step_of_timeTurn {s : State} {dt : Nat} (h : s.turns.headD .block = .time dt) :
    step s = .next (s.popTurn.advance dt) := by rw [step, systemStep, h, takeTurn]

/-- What one step can do once the turn is used up: a move of the block, the time base's advance, a host move, the
end of the host's wait, or nothing. -/
theorem step_cases {s t : State} (h : step s = .next t) :
    (s.blockEnabled = true ∧ blockStep s.popTurn = .next t) ∨ (∃ dt, t = s.popTurn.advance dt) ∨
      (∃ a, s.nextHostMove = some a ∧ hostMove a s.popTurn.popPending = .next t) ∨
      t = s.popTurn.popPending ∨ t = s.popTurn := by
  cases hw : s.turns.headD .block with
  | block =>
    rw [step_of_blockTurn hw, letBlock] at h
    split at h
    · exact .inl ⟨‹_›, h⟩
    · cases h; exact .inr (.inr (.inr (.inr rfl)))
  | time dt => rw [step_of_timeTurn hw] at h; cases h; exact .inr (.inl ⟨dt, rfl⟩)
  | host =>
    have hturns : ∃ w, s.turns = .host :: w := by
      cases ht : s.turns with
      | nil => rw [ht] at hw; cases hw
      | cons a w => rw [ht] at hw; cases hw; exact ⟨w, rfl⟩
    obtain ⟨w, ht⟩ := hturns
    rw [step, systemStep, hw, takeTurn, hostTurn] at h
    split at h
    · cases h; exact .inr (.inr (.inr (.inr rfl)))
    · split at h
      · cases h; exact .inr (.inr (.inr (.inl rfl)))
      · cases h; exact .inr (.inr (.inr (.inr rfl)))
    · rename_i a p hp
      exact .inr (.inr (.inl ⟨a, State.nextHostMove_iff.2 ⟨w, p, ht, hp⟩, h⟩))

/-- A block's step always answers a next state. -/
theorem blockStep_next (s : State) : ∃ t, blockStep s = .next t := by
  unfold blockStep acceptCommand
  split
  · split
    · exact exec_next _ _
    · unfold accept; split <;> exact ⟨_, rfl⟩
  · exact ⟨_, rfl⟩

end Sys2Proof.Machine
end

