-- ==== Sys2Proof/Tests/Slice0.lean ====
section
/-! SUPPORT. The model's own tests, each one step or one evaluation with the expected result from the spec, and
a witness for the hypotheses of each obligation. -/

namespace Sys2Proof.Tests

open Sys2Proof.Machine Sys2Proof.Admitted

set_option Elab.async false

/-! ## Helpers -/

/-- The next state of an outcome has the property. -/
def nextHas (o : Host.Outcome State Fault Refusal) (p : State → Bool) : Bool :=
  match o with
  | .next t => p t
  | .fault _ => false
  | .refused _ => false

/-- The state after reset with operands on the ports and a command presented. -/
def withPorts (c : Word32) (f : F64) (x y z : Word32) : State :=
  { State.reset with cmd := c, presented := true, f := f, x := x, y := y, z := z }

/-- The exact configuration: both tolerances 0 (R9). -/
def exactParams : Params := { Params.spec with epsOct := ⟨0, 1⟩, epsDac := ⟨0, 1⟩ }

/-- The host has the turn, and this move pending. -/
def withHost (s : State) (a : HostMove) : State := { s with turns := [.host], pending := [.move a] }

/-- The patterns of 1000.0, 1039.0, 519.5 and 1.0 (95_test_vectors.md). -/
def hz1000 : F64 := 0x408F400000000000
def hz1039 : F64 := 0x40903C0000000000
def hz519half : F64 := 0x40803C0000000000
def hz1 : F64 := 0x3FF0000000000000
def nanPattern : F64 := 0x7FF8000000000000

/-- In the middle of a SEND of 0xABCD: bit 11 is being clocked, `CLK` is 1 (R141). -/
def midSend : State :=
  { State.reset with
    txPhase := .bitHigh, txWord := 0xABCD, txBit := 11, txT0 := 9, now := 9, clk := true, ceN := false,
    data := true, history := [⟨.ceN, false, 0⟩, ⟨.data, true, 8⟩, ⟨.clk, true, 9⟩] }

/-! ## Decoding: the words of R71, bit by bit, and reserved words (R78) -/

theorem test_decode_octave : decode 0b00000000000000000000000000000000 = .command .octave := by decide
theorem test_decode_dac : decode 0b00000000000000000000000000000001 = .command .dac := by decide
theorem test_decode_pack : decode 0b00000000000000000000000000000010 = .command .pack := by decide
theorem test_decode_encode : decode 0b00000000000000000000000000000011 = .command .encode := by decide
theorem test_decode_send : decode 0b00000000000000000000000000000100 = .command .send := by decide
theorem test_decode_op_reserved :
    decode 0b00000000000000000000000000000110 = .reserved .reservedOp := by decide
theorem test_decode_rsv_nonzero :
    decode 0b00000000000000000000000000001000 = .reserved .reservedBits := by decide
theorem test_decodeTableWord :
    decodeTableWord 32 4 = some .send ∧ decodeTableWord 8 3 = some .encode ∧
      decodeTableWord 32 5 = none ∧ decodeTableWord 40 (2 ^ 32) = none := by decide

/-! ## Well-formed syntax: each check refuses an ill-formed term (R80) -/

theorem test_dec_above_range_refused : (IntLit.dec (2 ^ 31)).wellFormed = false := by decide
theorem test_dec_below_range_refused : (IntLit.dec (-2 ^ 31 - 1)).wellFormed = false := by decide
theorem test_hex_too_long_refused : (IntLit.hex (2 ^ 32)).wellFormed = false := by decide
theorem test_inexact_decimal_refused : (FreqLit.dec false 1 1).wellFormed = false := by
  decide +kernel
theorem test_bad_operand_refused :
    (AsmCmd.pack (.dec 0) (.hex (2 ^ 32)) (.dec 0)).wellFormed = false := by decide
theorem test_wellFormed_accepts : (AsmCmd.dac (.dec false 5195 1) (.dec (-2))).wellFormed = true := by
  decide +kernel
/-- The patterns of 95_test_vectors.md L2.1. -/
theorem test_literal_patterns :
    (FreqLit.dec false 1000 0).pattern = hz1000 ∧ (FreqLit.dec false 5195 1).pattern = hz519half ∧
      (FreqLit.dec true 0 0).pattern = 0x8000000000000000 ∧
      (FreqLit.dec true 5 0).pattern = 0xC014000000000000 := by decide +kernel

/-! ## The encoder commands (95_test_vectors.md L2) -/

/-- OCTAVE 519.5 is -2, not -1 (C3). -/
theorem test_octave_below_half :
    nextHas (exec .octave (withPorts 0 hz519half 0 0 0)) (fun t => t.res == some 0xFFFFFFFE) = true := by
  decide +kernel
/-- OCTAVE of a signalling NaN (L2.5). -/
theorem test_octave_nan :
    nextHas (exec .octave (withPorts 0 0x7FF0000000000001 0 0 0))
      (fun t => t.fault == some .freqNaN && t.res == none) = true := by decide
/-- DAC 1000.0, 0 truncates toward zero (D7). -/
theorem test_dac_truncates :
    nextHas (exec .dac (withPorts 1 hz1000 0 0 0)) (fun t => t.res == some 0xFFFFFFB1) = true := by
  decide +kernel
/-- DAC -inf, -2000: the guard ends the checks (L1.1, R174). -/
theorem test_dac_guard_first :
    nextHas (exec .dac (withPorts 1 0xFFF0000000000000 0xFFFFF830 0 0)) (fun t => t.res == some 0) =
      true := by decide
/-- PACK 5, -66043, 0 (L2.3). -/
theorem test_pack_masks :
    nextHas (exec .pack (withPorts 2 0 5 0xFFFEFE05 0)) (fun t => t.res == some 0x00005814) = true := by
  decide
/-- ENCODE 2^1000: octave 990, DAC -30 (L2.4). -/
theorem test_encode_top :
    nextHas (exec .encode (withPorts 3 0x7E70000000000000 0 0 0)) (fun t => t.res == some 0x0000EF88) =
      true := by decide +kernel
/-- ENCODE 2^-1001 (L2.5). -/
theorem test_encode_out_of_range :
    nextHas (exec .encode (withPorts 3 0x0160000000000000 0 0 0))
      (fun t => t.fault == some .freqOutOfModelledRange) = true := by decide +kernel

/-! ## SEND and the environment -/

/-- SEND ignores `X[31:16]` (D14). -/
theorem test_send_low_half :
    nextHas (exec .send (withPorts 4 0 0xFFFF0001 0 0))
      (fun t => t.txWord == 0x0001 && t.txPhase == .opening && t.res == none) = true := by decide
/-- A SEND under way holds the next command (R155). -/
theorem test_send_held :
    nextHas (exec .send { midSend with cmd := 4, presented := true, x := 7 })
      (fun t => t.presented && t.txWord == 0xABCD) = true := by decide
/-- A reserved word raises its fault, without a line event (L2.5). -/
theorem test_reserved_word :
    nextHas (step (withPorts 0x80000004 0 0xABCD 0 0))
      (fun t => t.fault == some .illegalCommand && t.history == []) = true := by decide
/-- The wait of `BitHigh` is not over at its entry time (R142). -/
theorem test_wait_holds : nextHas (step midSend) (fun t => t == midSend) = true := by decide
/-- With `EXPLICIT_CLK_LOW` the step of `Open` leads to `OpenClk` (R149). -/
theorem test_explicit_clk_low :
    nextHas (step { State.reset with
      txPhase := .opening, params := { Params.spec with explicitClkLow := true } })
      (fun t => t.txPhase == .openClk && t.ceN == false) = true := by decide
/-- With both tolerances 0 the octave of 519.5 is still -2 and the DAC value of `DAC 1000.0, -1020`, whose x lies
just below 2048, is 2047 alone (R101, R102, R107). -/
theorem test_exact_configuration :
    octDecided exactParams hz519half = true ∧ octEval exactParams hz519half = -2 ∧
      dacEval exactParams hz1000 (-1020) = 2047 := by decide +kernel
/-- SETFREQ waits, encodes, waits, and sends the result (R81, R82). -/
theorem test_setfreq_assembles :
    assemble (.setFreq startupFreq) =
      [.awaitReady, .move (.setF hz1000), .move (.present 3), .awaitReady, .move (.copyRes .x),
        .move (.present 4)] := by decide +kernel
/-- Reset during a SEND sets `DATA`, `CLK` and `CE_N` by three events (L2.7). -/
theorem test_reset_during_send :
    nextHas (step (withHost midSend .assertReset))
      (fun t => t.txPhase == .idle && t.ceN && !t.clk &&
        writes t.history == writes midSend.history ++ [(.data, false), (.clk, false), (.ceN, true)]) =
      true := by decide
/-- The write trace of L1.5 has 50 events and is received as 0xABCD. -/
theorem test_trace_received :
    (sendTrace false 0xABCD).length = 50 ∧
      receivedWords ((sendTrace false 0xABCD).map fun p => ⟨p.1, p.2, 0⟩) = [some 0xABCD] := by
  decide +kernel

/-! ## Witnesses: for each obligation with hypotheses, data that meets them -/

theorem witness_canAccept : State.reset.canAccept = true := by decide

theorem witness_ReservedWordsRaiseIllegalCommand :
    let s := withPorts 8 0 0 0 0
    s.canAccept = true ∧ s.presented = true ∧ s.cmd = 8 ∧ s.turns = [] ∧
      ((8 : Word32).toNat / 8 ≠ 0 ∨ (8 : Word32).toNat % 8 ∈ [5, 6, 7]) := by decide

theorem witness_StepRunsTheDecodedCommand :
    let s := withPorts 2 0 5 6 7
    s.canAccept = true ∧ s.presented = true ∧ decode s.cmd = .command .pack ∧ s.turns = [] ∧
      { s with turns := [Turn.block] }.turns = .block :: [] := by decide

theorem witness_PresentedCommandIsHeld :
    let s := { midSend with cmd := 3, presented := true }
    s.canAccept = false ∧ s.presented = true ∧ s.nextHostMove = none ∧
      nextHas (step s) (fun _ => true) = true := by decide

theorem witness_CommandIsNotExecutedUnlessAccepted : midSend.canAccept = false := by decide

theorem witness_PackingMasks : packWord (-1) 984 0 = packWord 15 984 4 := by decide

theorem witness_OctaveResult :
    State.reset.canAccept = true ∧ classify .spec nanPattern = .raises .freqNaN ∧
      classify .spec 0x7FF0000000000000 = .raises .freqPosInf ∧ classify .spec 0x8000000000000000 = .nonPos ∧
      classify .spec 0x0170000000000000 = .pos ∧ classify .spec 0x7E70000000000000 = .pos ∧
      classify .spec 0x016FFFFFFFFFFFFF = .raises .freqOutOfModelledRange ∧
      classify .spec 0x7E70000000000001 = .raises .freqOutOfModelledRange := by decide +kernel

/-- The clauses of `DacResult` meet at `X` = -1021, -1020, 1000 and 1001. -/
theorem witness_DacResult_exponents :
    classify .spec hz1000 = .pos ∧ 10 + (0xFFFFFC03 : Word32).toInt < -1010 ∧
      -1010 ≤ 10 + (0xFFFFFC04 : Word32).toInt ∧ 10 + (0x000003E8 : Word32).toInt ≤ 1010 ∧
      1010 < 10 + (0x000003E9 : Word32).toInt := by decide +kernel

theorem classify_hz1000 : classify .spec hz1000 = .pos := by decide +kernel
theorem classify_hz1 : classify .spec hz1 = .pos := by decide +kernel

/-- DAC 1.0, 30 is too low for 32 bits (L2.2), whatever the free value. -/
theorem witness_DacResult_below : dacEval .spec hz1 30 < -2 ^ (Params.spec.wInt - 1) :=
  lt_of_le_of_lt (dacEval_mem classify_hz1 30).2 (by decide +kernel)

theorem witness_DacResult_fits :
    -2 ^ (Params.spec.wInt - 1) ≤ dacEval .spec hz1000 (-1) ∧
      dacEval .spec hz1000 (-1) ≤ 2 ^ (Params.spec.wInt - 1) - 1 := by decide +kernel

theorem admissible_spec : admissible .spec = true := by decide +kernel

/-- The premises on the parameters of `OctEvalIsAdmitted` and its kin: the spec's, and the widest tolerance they
leave to `AdmittedOctavesAreTheInterval`. -/
theorem witness_Tolerances :
    admissible .spec = true ∧ (2 : ℝ) ^ (-90 : ℤ) ≤ ratio Params.spec.epsOct ∧
      admissible exactParams = true :=
  ⟨admissible_spec, by norm_num [ratio, Params.spec], by decide +kernel⟩

theorem witness_OnModelledFrequency : classify .spec hz1000 = .pos ∧ classify .spec hz1 = .pos :=
  ⟨classify_hz1000, classify_hz1⟩

theorem witness_AdmittedOctavesAreTheInterval :
    classify .spec hz1000 = .pos ∧ octDecided .spec hz1000 = true ∧ octDecided .spec hz1039 = true := by
  decide +kernel

/-- `DAC 1000.0, -1020` admits 2047 and 2048 (R107), at the least exponent of the range. -/
theorem witness_AdmittedDacValuesAreTheInterval :
    classify .spec hz1000 = .pos ∧ Params.spec.eMin ≤ 10 + (-1020 : ℤ) ∧ dacLow .spec hz1000 (-1020) = 2047 ∧
      dacHigh .spec hz1000 (-1020) = 2048 := by decide +kernel

/-- The exact value of a pattern, from its magnitude. -/
theorem val_of_scaled {v : F64} {n : Nat} (hs : f64Sign v = false) (h : f64Scaled v = n * 2 ^ 1074) :
    val v = n := by
  rw [val_eq_scaled hs, h, Nat.cast_mul, Nat.cast_pow, Nat.cast_ofNat]
  exact mul_div_cancel_right₀ _ (pow_ne_zero _ two_ne_zero)

theorem val_hz1000 : val hz1000 = 1000 := by
  have := val_of_scaled (v := hz1000) (n := 1000) (by decide) (by decide +kernel)
  exact_mod_cast this

theorem val_hz1039 : val hz1039 = 1039 := by
  have := val_of_scaled (v := hz1039) (n := 1039) (by decide) (by decide +kernel)
  exact_mod_cast this

theorem witness_ExactCasesHaveOneResult_octave : classify .spec hz1039 = .pos ∧ val hz1039 = 1039 :=
  ⟨by decide +kernel, val_hz1039⟩

/-- DAC 1039.0, 0 is exactly 0 (L2.2). -/
theorem witness_ExactCasesHaveOneResult_dac :
    classify .spec hz1039 = .pos ∧ (-1010 : ℤ) ≤ 10 + 0 ∧ (10 + 0 : ℤ) ≤ 1010 ∧
      dacExactValue (val hz1039) 0 = (0 : ℤ) :=
  ⟨by decide +kernel, by norm_num, by norm_num, by rw [val_hz1039]; norm_num [dacExactValue]⟩

/-- At 1000 Hz, where x(f, -1) = 984.064 is not within the band of 1024. -/
theorem witness_ResultsInTheHostRange :
    classify .spec hz1000 = .pos ∧ 1000 ≤ val hz1000 ∧ val hz1000 ≤ 200000 ∧
      (2 : ℝ) ^ (-40 : ℤ) * max 1 |dacExactValue (val hz1000) (-1)| <
        |dacExactValue (val hz1000) (-1) - 1024| := by
  refine ⟨classify_hz1000, by rw [val_hz1000], by rw [val_hz1000]; norm_num, ?_⟩
  have h : dacExactValue 1000 (-1) = 984.064 := by norm_num [dacExactValue]
  rw [val_hz1000, h]
  norm_num [abs_of_pos, abs_of_neg]

/-- v(1000) lies between -0.056 and -0.055 (L1.3: -0.05520). -/
theorem octExact_hz1000 : -0.056 < octExact (val hz1000) ∧ octExact (val hz1000) < -0.055 := by
  have h1 := octNumerLow_le classify_hz1000
  have h2 := le_octNumerHigh classify_hz1000
  have hS : (0 : ℝ) < octScale := by exact_mod_cast octScale_pos
  have h3 : ((-56 * octScale : ℤ) : ℝ) < ((1000 * octNumerLow hz1000 : ℤ) : ℝ) := by
    exact_mod_cast (by decide +kernel : -56 * octScale < 1000 * octNumerLow hz1000)
  have h4 : ((1000 * octNumerHigh hz1000 : ℤ) : ℝ) < ((-55 * octScale : ℤ) : ℝ) := by
    exact_mod_cast (by decide +kernel : 1000 * octNumerHigh hz1000 < -55 * octScale)
  push_cast at h3 h4
  constructor <;> nlinarith

theorem witness_OctaveOutsideTheBandIsTheFloor :
    classify .spec hz1000 = .pos ∧ ∀ n : ℤ, ratio Params.spec.epsOct * max 1 |octExact (val hz1000)| <
      |octExact (val hz1000) - n| := by
  refine ⟨classify_hz1000, fun n => ?_⟩
  obtain ⟨h1, h2⟩ := octExact_hz1000
  have hv : |octExact (val hz1000)| ≤ 1 := abs_le.2 ⟨by linarith, by linarith⟩
  rw [max_eq_left hv, mul_one]
  refine lt_trans (by norm_num [ratio, Params.spec] : ratio Params.spec.epsOct < 0.01) ?_
  rcases le_or_gt 0 n with hn | hn
  · have : (0 : ℝ) ≤ n := by exact_mod_cast hn
    rw [abs_of_nonpos (by linarith)]
    linarith
  · have : (n : ℝ) ≤ -1 := by exact_mod_cast Int.le_sub_one_of_lt hn
    rw [abs_of_nonneg (by linarith)]
    linarith

theorem witness_EncodeEqualsOctaveDacPack :
    (withPorts 3 hz1000 0 0 0).canAccept = true ∧ (withPorts 3 hz1000 0 0 0).params = .spec ∧
      ∀ k, classify (withPorts 3 hz1000 0 0 0).params (withPorts 3 hz1000 0 0 0).f ≠ .raises k := by
  refine ⟨by decide, rfl, fun k => ?_⟩
  change classify .spec hz1000 ≠ _
  rw [classify_hz1000]
  exact fun h => nomatch h

theorem witness_EncoderCommandsArePure :
    let s := withPorts 3 hz1000 1 2 3
    let t := { s with res := some 9, txWord := 5 }
    s.params = t.params ∧ s.canAccept = true ∧ t.canAccept = true ∧ s.f = t.f ∧ s.x = t.x ∧
      s.y = t.y ∧ s.z = t.z := by decide

theorem witness_EncoderFrame :
    Instr.pack ≠ .send ∧ nextHas (exec .pack State.reset) (fun _ => true) = true := by decide

theorem witness_ThousandHertzEncodesToFF60 :
    (withPorts 3 hz1000 0 0 0).canAccept = true ∧ (withPorts 3 hz1000 0 0 0).params = .spec ∧
      (withPorts 3 hz1000 0 0 0).f = 0x408F400000000000 := by decide

/-- One witness state for each phase of `SequenceSteps`. -/
theorem witness_SequenceSteps (p : Phase) :
    let s := { midSend with txPhase := p }
    s.turns = [] ∧ s.resetIn = false ∧ s.txPhase = p := ⟨rfl, rfl, rfl⟩

/-- A SEND presented in a machine with either setting of `EXPLICIT_CLK_LOW`, its schedule listed. -/
def presentedSend (explicitClkLow : Bool) : State :=
  { withPorts 4 0 0xABCD 0 0 with
    params := { Params.spec with explicitClkLow := explicitClkLow }, turns := eagerTurns explicitClkLow }

theorem witness_SendCompletes (explicitClkLow : Bool) :
    let s := presentedSend explicitClkLow
    s.canAccept = true ∧ s.presented = true ∧ s.cmd = encode .send ∧
      s.turns = eagerTurns s.params.explicitClkLow := ⟨rfl, rfl, rfl, rfl⟩

/-- A SEND just accepted, in a machine with either setting. -/
def acceptedSend (explicitClkLow : Bool) : State :=
  { (presentedSend explicitClkLow).take.beginSend with turns := [] }

theorem acceptedSend_sending (explicitClkLow : Bool) : (acceptedSend explicitClkLow).sending [] 0xABCD :=
  ⟨by decide +revert, by decide +revert, by decide +revert, by cases explicitClkLow <;> decide⟩

/-- `SendTraceUnderEverySchedule`: a SEND just accepted, with a host write pending. -/
theorem witness_SendTraceUnderEverySchedule :
    let s := withHost (acceptedSend true) (.setInt .x 3)
    s.sending [] 0xABCD ∧ s.resetNext = false ∧ nextHas (step s) (fun _ => true) = true :=
  ⟨acceptedSend_sending true, by decide, by decide⟩

/-- A SEND whose last wait ends in the coming step, with its whole trace made. -/
def lastWait : State :=
  { State.reset with
    txPhase := .finalWait, txWord := 0xABCD, txT0 := 33, now := 43,
    history := (sendTrace false 0xABCD).map fun e => ⟨e.1, e.2, 0⟩ }

theorem witness_DataEventsAreMostSignificantFirst :
    lastWait.sending [] 0xABCD ∧ lastWait.resetNext = false ∧
      nextHas (step lastWait) (fun t => t.txPhase == .idle) = true :=
  ⟨⟨by decide, by decide, rfl, by decide +kernel⟩, by decide, by decide⟩

/-- In `OpenClk`, where it exists. -/
def openClkDue : State :=
  { State.reset with txPhase := .opening, params := { Params.spec with explicitClkLow := true } }

theorem openClkDue_inv : openClkDue.Inv where
  openClk := by decide
  lines := by decide
  dataHeld := by decide
  faultIdle := by decide
  resetIdle := by decide
  waitEntry := by decide
  settled := by decide
  stampsOrdered := by decide
  stampsPast := by decide
  historyLevels := by decide

theorem witness_ExplicitClockLowAddsOneEvent :
    openClkDue.turns = [] ∧ openClkDue.txPhase = .opening ∧
      openClkDue.params.explicitClkLow = true := by decide

theorem witness_SendLastsAtLeast43Microseconds :
    lastWait.sendingSince 0 ∧ lastWait.resetNext = false ∧
      nextHas (step lastWait) (fun t => t.txPhase == .idle && t.now == 43) = true :=
  ⟨⟨by decide, by decide⟩, by decide, by decide⟩

/-- A schedule in which the block and the time base take turns. -/
def alternating (n : Nat) : Turn := if n % 2 = 0 then .block else .time 1

theorem alternating_time (n : Nat) :
    ((firstTurns alternating (2 * n)).map Turn.duration).sum = n := by
  induction n with
  | zero => rfl
  | succ n ih =>
    have h : 2 * (n + 1) = 2 * n + 1 + 1 := by omega
    have h0 : alternating (2 * n) = .block := by simp [alternating]
    have h1 : alternating (2 * n + 1) = .time 1 := by simp [alternating]
    rw [firstTurns] at ih
    rw [h, firstTurns, List.range_succ, List.range_succ]
    simp only [List.map_append, List.sum_append, ih, List.map_cons, List.map_nil, List.sum_cons,
      List.sum_nil, h0, h1, Turn.duration, Nat.add_zero]

theorem alternating_fair : Fair alternating where
  time bound := ⟨2 * bound, (alternating_time bound).ge⟩
  block n := ⟨2 * n, by omega, by simp [alternating]⟩

theorem acceptedSend_inv : (acceptedSend false).Inv where
  openClk := by decide
  lines := by decide
  dataHeld := by decide
  faultIdle := by decide
  resetIdle := by decide
  waitEntry := by decide
  settled := by decide
  stampsOrdered := by decide
  stampsPast := by decide
  historyLevels := by decide

theorem witness_SendFinishesUnderFairness :
    Fair alternating ∧ (acceptedSend false).Inv ∧ (acceptedSend false).sending [] 0xABCD ∧
      (acceptedSend false).hostIsHarmless :=
  ⟨alternating_fair, acceptedSend_inv, acceptedSend_sending false, by decide, fun _ _ h => nomatch h⟩

theorem witness_WaitsEndOnlyByTime : midSend.txPhase.waits = true ∧ midSend.txEnabled = false := by decide

theorem witness_ReceiverGetsTheWord (explicitClkLow : Bool) (w : Word16) :
    (receive []).ceN = true ∧ (receive []).clk = false ∧
      writes ((sendTrace explicitClkLow w).map fun p => ⟨p.1, p.2, 0⟩) = sendTrace explicitClkLow w := by
  refine ⟨rfl, rfl, ?_⟩
  simp [writes, List.map_map, Function.comp_def, LineEvent.write]

/-- `midSend` meets the invariant. -/
theorem midSend_inv : midSend.Inv where
  openClk := by decide
  lines := by decide
  dataHeld := by decide
  faultIdle := by decide
  resetIdle := by decide
  waitEntry := by decide
  settled := by decide
  stampsOrdered := by decide
  stampsPast := by decide
  historyLevels := by decide

/-- The wait over: one step leaves the phase. -/
def waitOver : State := { midSend with now := 10 }

theorem waitOver_inv : waitOver.Inv where
  openClk := by decide
  lines := by decide
  dataHeld := by decide
  faultIdle := by decide
  resetIdle := by decide
  waitEntry := by decide
  settled := by decide
  stampsOrdered := by decide
  stampsPast := by decide
  historyLevels := by decide

theorem witness_WaitsHoldTheirMinimum :
    waitOver.txPhase.waits = true ∧ waitOver.resetNext = false ∧
      nextHas (step waitOver) (fun t => t.txPhase != waitOver.txPhase) = true := by decide

/-- The other value of the minimum: the final wait over at exactly 10 µs. -/
def finalOver : State :=
  { State.reset with
    txPhase := .finalWait, txT0 := 33, now := 43, history := [⟨.ceN, false, 0⟩, ⟨.ceN, true, 33⟩] }

theorem finalOver_inv : finalOver.Inv where
  openClk := by decide
  lines := by decide
  dataHeld := by decide
  faultIdle := by decide
  resetIdle := by decide
  waitEntry := by decide
  settled := by decide
  stampsOrdered := by decide
  stampsPast := by decide
  historyLevels := by decide

theorem witness_WaitsHoldTheirMinimum_final :
    finalOver.txPhase.waits = true ∧ finalOver.resetNext = false ∧
      nextHas (step finalOver) (fun t => t.txPhase != finalOver.txPhase) = true := by decide

/-- The phase after that wait writes `CLK`. -/
def fallDue : State := { waitOver with txPhase := .bitFall }

theorem fallDue_inv : fallDue.Inv where
  openClk := by decide
  lines := by decide
  dataHeld := by decide
  faultIdle := by decide
  resetIdle := by decide
  waitEntry := by decide
  settled := by decide
  stampsOrdered := by decide
  stampsPast := by decide
  historyLevels := by decide

theorem witness_SettleSeparatesEvents :
    fallDue.txPhase.afterSettle = true ∧ fallDue.resetNext = false ∧
      nextHas (step fallDue) (fun t => t.history != fallDue.history) = true := by decide

theorem witness_SentWordIsConstant :
    midSend.txPhase ≠ .idle ∧ midSend.resetNext = false ∧
      nextHas (step midSend) (fun _ => true) = true := by decide

/-- A faulted block with a command presented. -/
def faulted : State := { withPorts 4 0 0x1000 0 0 with fault := some .freqNaN }

theorem faulted_inv : faulted.Inv where
  openClk := by decide
  lines := by decide
  dataHeld := by decide
  faultIdle := by decide
  resetIdle := by decide
  waitEntry := by decide
  settled := by decide
  stampsOrdered := by decide
  stampsPast := by decide
  historyLevels := by decide

theorem witness_FaultedBlockIsStuck :
    faulted.fault = some .freqNaN ∧ faulted.resetNext = false ∧
      nextHas (step faulted) (fun _ => true) = true := by decide

/-- Both clauses of `FaultsArePrecise`: a fault raised, and one cleared by reset. -/
theorem witness_FaultsArePrecise :
    nextHas (step (withPorts 5 0 0 0 0)) (fun t => t.fault != none) = true ∧
      nextHas (step (withHost faulted .assertReset))
        (fun t => t.fault != faulted.fault) = true := by decide

/-- The host's read of an `Unwritten` `RES`, and of a written one. -/
theorem witness_OnlyReadingUnwrittenResStops :
    step (withHost State.reset (.copyRes .x)) = .fault .resUnwritten ∧
      nextHas (step (withHost { State.reset with res := some 7 } (.copyRes .x))) (fun t => t.x == 7) =
        true := ⟨rfl, by decide⟩

theorem witness_BlockNeverWritesHostState :
    fallDue.nextHostMove = none ∧ nextHas (step fallDue) (fun t => !t.clk) = true := by decide

theorem witness_HostNeverWritesBlockState :
    (withHost midSend (.setF 1)).nextHostMove = some (.setF 1) ∧ HostMove.setF 1 ≠ .assertReset ∧
      nextHas (step (withHost midSend (.setF 1))) (fun t => t.f == 1) = true := by decide

/-- Any move can be the coming one: the clauses of `EnableLinesFollowTheHost` and `HostWritesLand`, and the host
moves of the reset statements. -/
theorem witness_NextHostMove (a : HostMove) (s : State) : (withHost s a).nextHostMove = some a := rfl

theorem witness_HostWritesLand_copy :
    { State.reset with res := some 7 }.res = some 7 := rfl

theorem witness_HostWaitsForItsCommand :
    { State.reset with turns := [.host], pending := [HostAct.awaitReady] }.turns = .host :: [] ∧
      { State.reset with turns := [.host], pending := [HostAct.awaitReady] }.pending =
        .awaitReady :: [] ∧
      State.reset.lastCompleted = true ∧ midSend.lastCompleted = false := by decide

theorem witness_HistoryOnlyGrows_time :
    { State.reset with turns := [Turn.time 5] }.turns = .time 5 :: [] := rfl

theorem witness_ParametersNeverChange : nextHas (step midSend) (fun _ => true) = true := by decide

theorem witness_HistoryOnlyGrows :
    fallDue.resetNext = false ∧ nextHas (step fallDue) (fun t => t.history.length == 4) = true := by
  decide

/-- A block in reset, its release pending. -/
def inReset : State := withHost { State.reset with resetIn := true } .releaseReset

theorem inReset_inv : inReset.Inv where
  openClk := by decide
  lines := by decide
  dataHeld := by decide
  faultIdle := by decide
  resetIdle := by decide
  waitEntry := by decide
  settled := by decide
  stampsOrdered := by decide
  stampsPast := by decide
  historyLevels := by decide

theorem witness_ReleasedResetIsReady :
    inReset.resetIn = true ∧ inReset.nextHostMove = some .releaseReset := by decide

theorem witness_InvariantIsKept : midSend.Inv ∧ nextHas (step midSend) (fun _ => true) = true :=
  ⟨midSend_inv, by decide⟩

theorem witness_IdleLines :
    finalOver.Inv ∧ nextHas (step finalOver) (fun t => t.txPhase == .idle) = true :=
  ⟨finalOver_inv, by decide⟩

theorem witness_BitsGoMostSignificantFirst : 1 ≤ 1 ∧ 16 ≤ 16 := by decide

end Sys2Proof.Tests
end

section
/-! PROOFS. The scope's statements (00_scope.md): the parameters of R9, at reset and under every step. -/

namespace Sys2Proof.Machine

open Sys2Proof.Admitted

/-! ## Normal patterns (R53) -/

/-- A normal pattern without sign and fraction stands for the power of two its exponent field gives. -/
theorem val_of_fraction_zero {v : F64} (hs : f64Sign v = false) (he : f64Exponent v ≠ 0)
    (hf : f64Fraction v = 0) : val v = (2 : ℝ) ^ ((f64Exponent v : ℤ) - 1023) := by
  have hexp : (f64Exponent v : ℤ) - 1023 = 52 + ((f64Exponent v : ℤ) - 1075) := by ring
  rw [val, hs, hf, if_neg Bool.false_ne_true, if_neg he, hexp, zpow_add₀ two_ne_zero]
  norm_num

/-- A normal pattern without sign is finite and positive. -/
theorem f64FinitePositive_of_normal {v : F64} (hs : f64Sign v = false) (he : f64Exponent v ≠ 0)
    (hmax : f64Exponent v < f64ExponentMax) : f64FinitePositive v = true := by
  have hpos : 0 < f64Scaled v := by
    rw [f64Scaled, if_neg he]
    positivity
  simp [f64FinitePositive, hs, hmax, hpos]

/-! ## The parameters the spec takes (R9) -/

theorem val_fModelLo_spec : val Params.spec.fModelLo = (2 : ℝ) ^ (-1000 : ℤ) := by
  have he : f64Exponent Params.spec.fModelLo = 23 := by decide
  rw [val_of_fraction_zero (by decide) (by rw [he]; decide) (by decide), he]
  norm_num

theorem val_fModelHi_spec : val Params.spec.fModelHi = (2 : ℝ) ^ (1000 : ℤ) := by
  have he : f64Exponent Params.spec.fModelHi = 2023 := by decide
  rw [val_of_fraction_zero (by decide) (by rw [he]; decide) (by decide), he]
  norm_num

theorem params_spec_admissible : admissible .spec = true := by
  have hlo : f64FinitePositive Params.spec.fModelLo = true :=
    f64FinitePositive_of_normal (by decide) (by decide) (by decide)
  have hhi : f64FinitePositive Params.spec.fModelHi = true :=
    f64FinitePositive_of_normal (by decide) (by decide) (by decide)
  rw [admissible, hlo, hhi]
  decide

theorem ratio_one_two_pow (n : Nat) : ratio ⟨1, 2 ^ n⟩ = (2 : ℝ) ^ (-n : ℤ) := by
  simp [ratio]

/-! ## The parameters under a step (R9, R35) -/

@[simp] theorem State.txDrive_params (s : State) : s.txDrive.params = s.params := by
  unfold State.txDrive
  split
  · exact State.writeLine_params ..
  · rfl
  · rfl

@[simp] theorem State.txStep_params (s : State) : s.txStep.params = s.params :=
  State.txDrive_params s

theorem blockStep_params {s t : State} (he : s.blockEnabled = true) (h : blockStep s = .next t) :
    t.params = s.params := by
  rcases blockStep_cases he h with ⟨-, -, ⟨v, rfl⟩ | ⟨k, rfl⟩ | rfl⟩ | ⟨-, -, -, rfl⟩ <;> simp

theorem hostMove_params {a : HostMove} {s t : State} (h : hostMove a s = .next t) :
    t.params = s.params := by
  rcases hostMove_cases h with ⟨v, -, rfl⟩ | ⟨v, p, -, rfl⟩ | ⟨c, -, rfl⟩ | ⟨b, -, rfl⟩ |
    ⟨b, -, rfl⟩ | ⟨-, rfl⟩ | ⟨-, rfl⟩ <;> simp

theorem step_params {s t : State} (h : step s = .next t) : t.params = s.params := by
  rcases step_cases h with ⟨he, hb⟩ | ⟨dt, rfl⟩ | ⟨a, -, ha⟩ | rfl | rfl
  · exact blockStep_params (s := s.popTurn) he hb
  · rfl
  · exact hostMove_params (s := s.popTurn.popPending) ha
  · rfl
  · rfl

/-- Settles O60: each thing a step can do (`step_cases`) keeps the parameters. -/
theorem parametersNeverChange : Obligations.ParametersNeverChange :=
  fun _ _ => step_params

/-- Settles O59: the bounds of the modelled range are the powers of two of their exponent fields. -/
theorem parametersAsTheSpecTakesThem : Obligations.ParametersAsTheSpecTakesThem :=
  ⟨ratio_one_two_pow 40, ratio_one_two_pow 40, rfl, val_fModelLo_spec, val_fModelHi_spec,
    rfl, rfl, rfl, params_spec_admissible, rfl⟩

end Sys2Proof.Machine
end

section
/-! PROOFS. Layer for the state's statements (10_state.md): what each agent's step leaves unchanged. -/

namespace Sys2Proof.Machine

/-! ## One step of the transmitter (R141, R142) -/

theorem State.txDrive_of_drive {s : State} {l : Line} {b : Level} (h : s.txAction = .drive l b) :
    s.txDrive = s.writeLine l b := by
  rw [State.txDrive, h]

theorem State.txDrive_of_wait {s : State} {d : Nat} (h : s.txAction = .wait d) : s.txDrive = s := by
  rw [State.txDrive, h]

/-- The phase's action writes one line, or leaves the state as it is (R141). -/
theorem State.txDrive_cases (s : State) :
    (∃ l b, s.txAction = .drive l b ∧ s.txDrive = s.writeLine l b) ∨ s.txDrive = s := by
  cases h : s.txAction with
  | drive l b => exact .inl ⟨l, b, rfl, State.txDrive_of_drive h⟩
  | none => right; rw [State.txDrive, h]
  | wait d => exact .inr (State.txDrive_of_wait h)

/-- A step of the transmitter writes the lines, their history and its own phase, index and entry time (R141). -/
theorem State.txStep_frame (s : State) : s.txStep = { s with
    data := s.txStep.data, clk := s.txStep.clk, ceN := s.txStep.ceN, history := s.txStep.history,
    txPhase := s.txStep.txPhase, txBit := s.txStep.txBit, txT0 := s.txStep.txT0 } := by
  unfold State.txStep
  rcases s.txDrive_cases with ⟨l, b, -, h⟩ | h <;> rw [h]
  · cases l <;> rfl
  · rfl

section
variable (s : State)

@[simp] theorem State.txStep_cmd : s.txStep.cmd = s.cmd := by
  rw [State.txStep_frame]
@[simp] theorem State.txStep_presented : s.txStep.presented = s.presented := by
  rw [State.txStep_frame]
@[simp] theorem State.txStep_f : s.txStep.f = s.f := by
  rw [State.txStep_frame]
@[simp] theorem State.txStep_x : s.txStep.x = s.x := by
  rw [State.txStep_frame]
@[simp] theorem State.txStep_y : s.txStep.y = s.y := by
  rw [State.txStep_frame]
@[simp] theorem State.txStep_z : s.txStep.z = s.z := by
  rw [State.txStep_frame]
@[simp] theorem State.txStep_res : s.txStep.res = s.res := by
  rw [State.txStep_frame]
@[simp] theorem State.txStep_txWord : s.txStep.txWord = s.txWord := by
  rw [State.txStep_frame]
@[simp] theorem State.txStep_fault : s.txStep.fault = s.fault := by
  rw [State.txStep_frame]
@[simp] theorem State.txStep_now : s.txStep.now = s.now := by
  rw [State.txStep_frame]
@[simp] theorem State.txStep_oscOe : s.txStep.oscOe = s.oscOe := by
  rw [State.txStep_frame]
@[simp] theorem State.txStep_drvEn : s.txStep.drvEn = s.drvEn := by
  rw [State.txStep_frame]
@[simp] theorem State.txStep_resetIn : s.txStep.resetIn = s.resetIn := by
  rw [State.txStep_frame]
@[simp] theorem State.txDrive_now : s.txDrive.now = s.now := s.txStep_now
@[simp] theorem State.txStep_txPhase :
    s.txStep.txPhase = (txSuccessor s.params.explicitClkLow s.txPhase s.txBit).1 := rfl
@[simp] theorem State.txStep_txBit :
    s.txStep.txBit = (txSuccessor s.params.explicitClkLow s.txPhase s.txBit).2 := rfl
@[simp] theorem State.txStep_data : s.txStep.data = s.txDrive.data := rfl
@[simp] theorem State.txStep_clk : s.txStep.clk = s.txDrive.clk := rfl
@[simp] theorem State.txStep_ceN : s.txStep.ceN = s.txDrive.ceN := rfl
@[simp] theorem State.txStep_history : s.txStep.history = s.txDrive.history := rfl
theorem State.txStep_txT0 : s.txStep.txT0 =
    if s.txStep.txPhase.waits then s.now else s.txT0 := by
  rw [State.txStep_txPhase, State.txStep, State.enter_txT0, State.txDrive_now]
  rcases s.txDrive_cases with ⟨l, b, -, h⟩ | h <;> simp [h]

end

/-! ## What is left of the block's state by a step that is not its own -/

/-- `t` has the transmitter and the line history of `s`, no earlier time, and no newly asserted reset. -/
structure State.SameTransmitter (s t : State) : Prop where
  data : t.data = s.data
  clk : t.clk = s.clk
  ceN : t.ceN = s.ceN
  txPhase : t.txPhase = s.txPhase
  txWord : t.txWord = s.txWord
  txBit : t.txBit = s.txBit
  txT0 : t.txT0 = s.txT0
  history : t.history = s.history
  params : t.params = s.params
  now_le : s.now ≤ t.now
  resetIn : t.resetIn = true → s.resetIn = true

/-- `t` also has the result and the fault of `s`. -/
structure State.SameBlock (s t : State) : Prop extends s.SameTransmitter t where
  res : t.res = s.res
  fault : t.fault = s.fault

theorem State.SameBlock.popTurn (s : State) : s.SameBlock s.popTurn :=
  ⟨by constructor <;> simp, rfl, rfl⟩

theorem State.SameBlock.popPending (s : State) : s.SameBlock s.popTurn.popPending :=
  ⟨by constructor <;> simp, rfl, rfl⟩

theorem State.SameBlock.advance (s : State) (dt : Nat) : s.SameBlock (s.popTurn.advance dt) :=
  ⟨by constructor <;> simp, rfl, rfl⟩

theorem State.SameTransmitter.writeRes (s : State) (v : Word32) :
    s.SameTransmitter (s.popTurn.take.writeRes v) := by
  constructor <;> simp

theorem State.SameTransmitter.raiseFault (s : State) (k : FaultKind) :
    s.SameTransmitter (s.popTurn.take.raiseFault k) := by
  constructor <;> simp

/-- A host move asserts reset or leaves the block's state alone (R207). -/
theorem hostMove_sameBlock {a : HostMove} {s t : State} (h : hostMove a s.popTurn.popPending = .next t)
    (ha : a ≠ .assertReset) : s.SameBlock t := by
  rcases hostMove_cases h with ⟨v, -, rfl⟩ | ⟨v, p, -, rfl⟩ | ⟨c, -, rfl⟩ | ⟨b, -, rfl⟩ |
    ⟨b, -, rfl⟩ | ⟨rfl, -⟩ | ⟨-, rfl⟩
  case inr.inr.inr.inr.inr.inl => exact absurd rfl ha
  all_goals exact ⟨by constructor <;> simp, by simp, by simp⟩

/-! ## What one step can do -/

/-- A step by its agent: the command unit accepts, the transmitter steps, the host moves, the time base advances,
the host's wait ends, or nothing happens (R20). -/
theorem step_outcomes {s t : State} (h : step s = .next t) :
    (s.canAccept = true ∧ s.presented = true ∧
        ((∃ v, t = s.popTurn.take.writeRes v) ∨ (∃ k, t = s.popTurn.take.raiseFault k) ∨
          t = s.popTurn.take.beginSend)) ∨
      (s.resetIn = false ∧ s.txPhase ≠ .idle ∧ s.txEnabled = true ∧ t = s.popTurn.txStep) ∨
      (∃ a, s.nextHostMove = some a ∧ hostMove a s.popTurn.popPending = .next t) ∨
      (∃ dt, t = s.popTurn.advance dt) ∨ t = s.popTurn.popPending ∨ t = s.popTurn := by
  rcases step_cases h with ⟨he, hb⟩ | ht | ha | hp | hn
  · rcases blockStep_cases (s := s.popTurn) he hb with hacc | htx
    · exact .inl hacc
    · exact .inr (.inl htx)
  · exact .inr (.inr (.inr (.inl ht)))
  · exact .inr (.inr (.inl ha))
  · exact .inr (.inr (.inr (.inr (.inl hp))))
  · exact .inr (.inr (.inr (.inr (.inr hn))))

/-- A step by what it does to the block: the command unit accepts, the transmitter steps, reset is asserted, or the
block's state stays. -/
theorem step_block_cases {s t : State} (h : step s = .next t) :
    (s.canAccept = true ∧ s.presented = true ∧
        ((∃ v, t = s.popTurn.take.writeRes v) ∨ (∃ k, t = s.popTurn.take.raiseFault k) ∨
          t = s.popTurn.take.beginSend)) ∨
      (s.resetIn = false ∧ s.txPhase ≠ .idle ∧ s.txEnabled = true ∧ t = s.popTurn.txStep) ∨
      (s.resetNext = true ∧ t = s.popTurn.popPending.assertReset) ∨ s.SameBlock t := by
  rcases step_outcomes h with hacc | htx | ⟨a, hnext, ha⟩ | ⟨dt, rfl⟩ | rfl | rfl
  · exact .inl hacc
  · exact .inr (.inl htx)
  · by_cases hr : a = .assertReset
    · subst hr
      cases ha
      exact .inr (.inr (.inl ⟨by simp [State.resetNext, hnext], rfl⟩))
    · exact .inr (.inr (.inr (hostMove_sameBlock ha hr)))
  · exact .inr (.inr (.inr (.advance s dt)))
  · exact .inr (.inr (.inr (.popPending s)))
  · exact .inr (.inr (.inr (.popTurn s)))

/-- During a SEND a step that does not assert reset is one of the transmitter, or leaves the block's state (R178). -/
theorem step_cases_of_sending {s t : State} (hne : s.txPhase ≠ .idle) (hr : s.resetNext = false)
    (h : step s = .next t) :
    (s.txEnabled = true ∧ t = s.popTurn.txStep) ∨ s.SameBlock t := by
  rcases step_block_cases h with ⟨hacc, -⟩ | ⟨-, -, hen, rfl⟩ | ⟨hr', -⟩ | hk
  · exact absurd ((State.canAccept_iff s).1 hacc).1 hne
  · exact .inl ⟨hen, rfl⟩
  · exact absurd hr' (by simp [hr])
  · exact .inr hk

end Sys2Proof.Machine
end

section
/-! PROOFS. A SEND under every schedule (R31, R32, R151, R154, R155). -/

namespace Sys2Proof.Machine

/-! ## The write trace, event by event (R151) -/

theorem getElem?_msbFirst (w : Word16) (i : BitVec 4) :
    (msbFirst w)[15 - i.toNat]? = some (w.getLsbD i.toNat) := by
  have hi : i.toNat < 16 := i.isLt
  interval_cases i.toNat <;> rfl

theorem getElem?_flatMap_bitTrace {bits : List Level} {k : Nat} {b : Level} (h : bits[k]? = some b) :
    (bits.flatMap bitTrace)[3 * k]? = some (.data, b) ∧
      (bits.flatMap bitTrace)[3 * k + 1]? = some (.clk, true) ∧
      (bits.flatMap bitTrace)[3 * k + 2]? = some (.clk, false) := by
  induction bits generalizing k with
  | nil => cases h
  | cons c bits ih =>
    cases k with
    | zero => cases h; exact ⟨rfl, rfl, rfl⟩
    | succ k => exact ih h

/-- The number of events before the first bit: `CE_N` low, and `CLK` low where it is explicit (R149). -/
def openingWrites (explicitClkLow : Bool) : Nat := if explicitClkLow then 2 else 1

theorem length_sendTrace (e : Bool) (w : Word16) : (sendTrace e w).length = openingWrites e + 49 := by
  cases e <;> rfl

theorem getElem?_sendTrace_bits (e : Bool) (w : Word16) {k : Nat} (hk : k < 48) :
    (sendTrace e w)[openingWrites e + k]? = ((msbFirst w).flatMap bitTrace)[k]? := by
  have hlen : ((msbFirst w).flatMap bitTrace).length = 48 := rfl
  rw [sendTrace, List.getElem?_append_left, List.getElem?_append_right]
  · cases e <;> simp [openingWrites]
  · cases e <;> simp [openingWrites]
  · rw [List.length_append, hlen]
    cases e <;> simp [openingWrites] <;> omega

theorem getElem?_sendTrace_closing (e : Bool) (w : Word16) :
    (sendTrace e w)[openingWrites e + 48]? = some (.ceN, true) := by
  cases e <;> rfl

/-- The three events of the bit with index `i`, as they stand in the write trace (R145, R151). -/
theorem getElem?_sendTrace_bit (e : Bool) (w : Word16) (i : BitVec 4) :
    (sendTrace e w)[openingWrites e + 3 * (15 - i.toNat)]? = some (.data, w.getLsbD i.toNat) ∧
      (sendTrace e w)[openingWrites e + 3 * (15 - i.toNat) + 1]? = some (.clk, true) ∧
      (sendTrace e w)[openingWrites e + 3 * (15 - i.toNat) + 2]? = some (.clk, false) := by
  obtain ⟨hdata, hrise, hfall⟩ := getElem?_flatMap_bitTrace (getElem?_msbFirst w i)
  exact ⟨(getElem?_sendTrace_bits e w (by omega)).trans hdata,
    (getElem?_sendTrace_bits e w (by omega)).trans hrise,
    (getElem?_sendTrace_bits e w (by omega)).trans hfall⟩

/-! ## The events a step of the transmitter adds -/

/-- The events of an action: one for a line write, none for a wait's exit (R55). -/
def TxAction.writes : TxAction → List (Line × Level)
  | .drive l b => [(l, b)]
  | .none | .wait _ => []

theorem State.txDrive_writes (s : State) :
    writes s.txDrive.history = writes s.history ++ s.txAction.writes := by
  unfold State.txDrive
  split <;> rename_i h <;> rw [h] <;> simp [writes, TxAction.writes, LineEvent.write]

/-- A line write of the transmitter is the next event of the write trace, and the phase after it says so (R151). -/
theorem State.drive_is_next_write {s : State} {l : Line} {b : Level} (h : s.txAction = .drive l b)
    (hoc : s.txPhase = .openClk → s.params.explicitClkLow = true) :
    (sendTrace s.params.explicitClkLow s.txWord)[
        writesMade s.params.explicitClkLow s.txPhase s.txBit]? = some (l, b) ∧
      writesMade s.params.explicitClkLow s.txStep.txPhase s.txStep.txBit =
        writesMade s.params.explicitClkLow s.txPhase s.txBit + 1 := by
  obtain ⟨hdata, hrise, hfall⟩ := getElem?_sendTrace_bit s.params.explicitClkLow s.txWord s.txBit
  rw [State.txStep_txPhase, State.txStep_txBit]
  unfold State.txAction at h
  cases hp : s.txPhase <;> rw [hp] at h <;> cases h
  case opening => cases s.params.explicitClkLow <;> exact ⟨rfl, rfl⟩
  case openClk => rw [hoc hp]; exact ⟨rfl, rfl⟩
  case bitData => exact ⟨hdata, rfl⟩
  case bitRise => exact ⟨hrise, rfl⟩
  case bitFall => exact ⟨hfall, rfl⟩
  case closing => exact ⟨getElem?_sendTrace_closing _ _, rfl⟩

/-- The exit of a wait is no event, and the phase after it says so (R55, R151). -/
theorem State.wait_makes_no_write {s : State} {d : Nat} (h : s.txAction = .wait d)
    (hf : s.txPhase ≠ .finalWait) :
    writesMade s.params.explicitClkLow s.txStep.txPhase s.txStep.txBit =
      writesMade s.params.explicitClkLow s.txPhase s.txBit := by
  rw [State.txStep_txPhase, State.txStep_txBit]
  unfold State.txAction at h
  cases hp : s.txPhase <;> rw [hp] at h <;> cases h
  case settle0 => rfl
  case bitHigh => rfl
  case bitLow =>
    by_cases h0 : s.txBit = 0
    · rw [h0]; rfl
    · have hpos : 0 < s.txBit.toNat := by bv_omega
      have hsub : (s.txBit - 1).toNat = s.txBit.toNat - 1 := by bv_omega
      simp only [txSuccessor, if_neg h0, writesMade, hsub]
      omega
  case finalWait => exact absurd hp hf

/-- Outside `Idle` the transmitter writes a line or waits (R141). -/
theorem State.txAction_cases {s : State} (h : s.txPhase ≠ .idle) :
    (∃ l b, s.txAction = .drive l b) ∨ ∃ d, s.txAction = .wait d := by
  unfold State.txAction
  cases hp : s.txPhase
  case idle => exact absurd hp h
  all_goals simp

theorem txSuccessor_eq_idle {e : Bool} {p : Phase} {bit : BitVec 4} :
    (txSuccessor e p bit).1 = .idle ↔ p = .idle ∨ p = .finalWait := by
  cases p <;> simp only [txSuccessor]
  case opening | bitLow => split <;> simp
  all_goals simp

theorem txSuccessor_eq_openClk {e : Bool} {p : Phase} {bit : BitVec 4}
    (h : (txSuccessor e p bit).1 = .openClk) : e = true := by
  cases p <;> simp only [txSuccessor] at h
  case opening => simpa using h
  case bitLow => split at h <;> cases h
  all_goals cases h

/-! ## The statements -/

/-- One step of the transmitter takes a SEND one phase on, or completes it from `FinalWait` (R141, R151). -/
theorem State.txStep_sending {s : State} {before : List (Line × Level)} {w : Word16}
    (h : s.sending before w) :
    s.txStep.sending before w ∨ s.txStep.txPhase = .idle ∧ s.txStep.txWord = w ∧
      writes s.txStep.history = before ++ sendTrace s.params.explicitClkLow w := by
  obtain ⟨hne, hoc, rfl, hh⟩ := h
  change writes s.history = _ at hh
  by_cases hf : s.txPhase = .finalWait
  · have hall : (sendTrace s.params.explicitClkLow s.txWord).length ≤
        writesMade s.params.explicitClkLow .finalWait s.txBit := (length_sendTrace _ _).le
    have hwait : s.txAction = .wait Config.tFinal := by rw [State.txAction, hf]
    refine .inr ⟨by simp [hf, txSuccessor], by simp, ?_⟩
    rw [State.txStep_history, State.txDrive_of_wait hwait, hh, hf, List.take_of_length_le hall]
  · refine .inl ⟨?_, fun ho => ?_, State.txStep_txWord s, ?_⟩
    · rw [State.txStep_txPhase, ne_eq, txSuccessor_eq_idle]
      exact not_or.2 ⟨hne, hf⟩
    · rw [State.txStep_params]
      exact txSuccessor_eq_openClk ho
    · change writes s.txDrive.history = _
      rw [State.txDrive_writes, hh, State.txStep_params, List.append_assoc]
      rcases State.txAction_cases hne with ⟨l, b, ha⟩ | ⟨d, ha⟩
      · obtain ⟨hget, hmade⟩ := State.drive_is_next_write ha hoc
        rw [hmade, List.take_add_one, hget, ha]
        rfl
      · rw [State.wait_makes_no_write ha hf, ha]
        exact congrArg _ (List.append_nil _)

theorem State.SameBlock.sending {s t : State} {before : List (Line × Level)} {w : Word16}
    (k : s.SameBlock t) (h : s.sending before w) : t.sending before w := by
  unfold State.sending at h ⊢
  rwa [k.txPhase, k.params, k.txWord, k.history, k.txBit]

theorem exec_send_sending {s t : State} (hc : s.canAccept = true) (h : exec .send s = .next t) :
    t.sending (writes s.history) (s.x.extractLsb' 0 16) := by
  change accept s State.beginSend = .next t at h
  rw [accept_of_canAccept hc] at h
  cases h
  exact ⟨by simp, by simp, rfl, (List.append_nil _).symm⟩

/-- Settles O33: each line write is the next event of the write trace, each wait's exit none, and what is no step of
the transmitter leaves the block as it is. -/
theorem sendTraceUnderEverySchedule : Obligations.SendTraceUnderEverySchedule := by
  refine ⟨fun s t => exec_send_sending, fun s t before w hs hr h => ?_⟩
  rcases step_cases_of_sending hs.1 hr h with ⟨-, rfl⟩ | hk
  · exact ⟨by simp, by simp, State.txStep_sending (s := s.popTurn) hs⟩
  · exact ⟨hk.res, hk.fault, .inl (hk.sending hs)⟩

/-- Settles O37: only the acceptance of a SEND latches `TX_WORD`. -/
theorem sentWordIsConstant : Obligations.SentWordIsConstant := by
  intro s t hne hr h
  rcases step_cases_of_sending hne hr h with ⟨-, rfl⟩ | hk
  · simp
  · exact hk.txWord

end Sys2Proof.Machine
end

section
/-! PROOFS. The machine's invariant (R31, R39, R58, R142, R149, R157, R171, R190): at reset, and under every step. -/

namespace Sys2Proof.Machine

/-! ## The line history and the lines (R55, R58) -/

/-- An event gives its line its level in the receiver's view, and leaves the other two lines (R55). -/
theorem RxView.observe_levels (r : RxView) (e : LineEvent) :
    (r.observe e).data = (if e.line = .data then e.level else r.data) ∧
      (r.observe e).clk = (if e.line = .clk then e.level else r.clk) ∧
      (r.observe e).ceN = (if e.line = .ceN then e.level else r.ceN) := by
  unfold RxView.observe
  cases hl : e.line
  case data => simp
  case clk =>
    dsimp only
    split <;> simp
  case ceN =>
    dsimp only
    split
    · simp
    · split <;> simp

theorem receive_append_event (h : List LineEvent) (e : LineEvent) :
    receive (h ++ [e]) = (receive h).observe e := by
  simp [receive]

theorem lastTime_append_event (h : List LineEvent) (e : LineEvent) :
    lastTime (h ++ [e]) = some e.time := by
  simp [lastTime]

/-- The part of the invariant that speaks of the line history: ordered stamps, none in the future, and the levels
of the lines. -/
structure State.HistoryInv (s : State) : Prop where
  stampsOrdered : s.history.Pairwise (fun a b => a.time ≤ b.time)
  stampsPast : ∀ e ∈ s.history, e.time ≤ s.now
  historyLevels : (receive s.history).data = s.data ∧ (receive s.history).clk = s.clk ∧
    (receive s.history).ceN = s.ceN

theorem State.Inv.historyInv {s : State} (h : s.Inv) : s.HistoryInv :=
  ⟨h.stampsOrdered, h.stampsPast, h.historyLevels⟩

/-- A line write stamps its event with the present, and the event gives the line its level (R55). -/
theorem State.HistoryInv.writeLine {s : State} (h : s.HistoryInv) (l : Line) (b : Level) :
    (s.writeLine l b).HistoryInv where
  stampsOrdered := by
    rw [State.writeLine_history, List.pairwise_append]
    exact ⟨h.stampsOrdered, List.pairwise_singleton _ _, by simpa using h.stampsPast⟩
  stampsPast := by
    simp only [State.writeLine_history, State.writeLine_now, List.mem_append, List.mem_singleton]
    rintro e (he | rfl)
    · exact h.stampsPast e he
    · exact le_rfl
  historyLevels := by
    obtain ⟨hdata, hclk, hceN⟩ := h.historyLevels
    simp [receive_append_event, RxView.observe_levels, hdata, hclk, hceN]

theorem State.HistoryInv.resetLine {s : State} (h : s.HistoryInv) (l : Line) (b : Level) :
    (s.resetLine l b).HistoryInv := by
  unfold State.resetLine
  split
  · exact h
  · exact h.writeLine l b

theorem State.HistoryInv.assertReset {s : State} (h : s.HistoryInv) : s.assertReset.HistoryInv :=
  have hl : s.resetLines.HistoryInv := ((h.resetLine _ _).resetLine _ _).resetLine _ _
  ⟨hl.stampsOrdered, hl.stampsPast, hl.historyLevels⟩

theorem State.HistoryInv.txStep {s : State} (h : s.HistoryInv) : s.txStep.HistoryInv := by
  have hd : s.txDrive.HistoryInv := by
    rcases s.txDrive_cases with ⟨l, b, -, hw⟩ | hw <;> rw [hw]
    · exact h.writeLine l b
    · exact h
  exact ⟨hd.stampsOrdered, hd.stampsPast, hd.historyLevels⟩

/-! ## Reset, acceptance, and steps that leave the transmitter alone -/

/-- Settles O48: every clause is a fact about the one state. -/
theorem invariantAtReset : Obligations.InvariantAtReset where
  openClk := by decide
  lines := by decide
  dataHeld := by decide
  faultIdle := by decide
  resetIdle := by decide
  waitEntry := by decide
  settled := by decide
  stampsOrdered := by decide
  stampsPast := by decide
  historyLevels := by decide

theorem State.Inv.assertReset {s : State} (h : s.Inv) : s.assertReset.Inv where
  openClk := by simp
  lines := by simp [Phase.ceN, Phase.clk]
  dataHeld := by simp [Phase.holdsBit]
  faultIdle := by simp
  resetIdle := by simp
  waitEntry := by simp [Phase.waits]
  settled := by simp [Phase.afterSettle]
  stampsOrdered := h.historyInv.assertReset.stampsOrdered
  stampsPast := h.historyInv.assertReset.stampsPast
  historyLevels := h.historyInv.assertReset.historyLevels

/-- With the transmitter and the history unchanged, only the clauses about faults remain to be shown. -/
theorem State.Inv.of_sameTransmitter {s t : State} (h : s.Inv) (k : s.SameTransmitter t)
    (hfault : t.fault ≠ none → t.txPhase = .idle ∧ t.resetIn = false) : t.Inv where
  openClk := by rw [k.txPhase, k.params]; exact h.openClk
  lines := by rw [k.txPhase, k.ceN, k.clk]; exact h.lines
  dataHeld := by
    rw [State.txDataBit, k.txPhase, k.data, k.txWord, k.txBit]
    exact h.dataHeld
  faultIdle hf := (hfault hf).1
  resetIdle hr := by
    refine ⟨k.txPhase.trans (h.resetIdle (k.resetIn hr)).1, ?_⟩
    by_contra hf
    simp [(hfault hf).2] at hr
  waitEntry := by rw [k.txPhase, k.history, k.txT0]; exact h.waitEntry
  settled := by
    rw [k.txPhase, k.history, k.txT0]
    exact fun ha => ⟨(h.settled ha).1, (h.settled ha).2.trans k.now_le⟩
  stampsOrdered := by rw [k.history]; exact h.stampsOrdered
  stampsPast := by rw [k.history]; exact fun e he => (h.stampsPast e he).trans k.now_le
  historyLevels := by rw [k.history, k.data, k.clk, k.ceN]; exact h.historyLevels

theorem State.Inv.of_sameBlock {s t : State} (h : s.Inv) (k : s.SameBlock t) : t.Inv := by
  refine h.of_sameTransmitter k.toSameTransmitter fun hf => ?_
  rw [k.fault] at hf
  refine ⟨k.txPhase.trans (h.faultIdle hf), ?_⟩
  by_contra hr
  exact hf (h.resetIdle (k.resetIn (by simpa using hr))).2

/-- The start of a SEND leaves the lines at their levels of `Idle`, which are those of `Open` (R140). -/
theorem State.Inv.beginSend {s : State} (h : s.Inv) (hc : s.canAccept = true) :
    s.popTurn.take.beginSend.Inv := by
  obtain ⟨hidle, hfault, hreset⟩ := (State.canAccept_iff s).1 hc
  have hlines := h.lines
  rw [hidle] at hlines
  exact
    { openClk := by simp
      lines := by simpa [Phase.ceN, Phase.clk] using hlines
      dataHeld := by simp [Phase.holdsBit]
      faultIdle := by simp [hfault]
      resetIdle := by simp [hreset]
      waitEntry := by simp [Phase.waits]
      settled := by simp [Phase.afterSettle]
      stampsOrdered := h.stampsOrdered
      stampsPast := h.stampsPast
      historyLevels := h.historyLevels }

/-! ## One step of the transmitter -/

/-- A phase's action takes the lines to their levels in the phase after it (R39, R141). -/
theorem State.txStep_lines {s : State} (h : s.ceN = s.txPhase.ceN ∧ s.clk = s.txPhase.clk) :
    s.txStep.ceN = s.txStep.txPhase.ceN ∧ s.txStep.clk = s.txStep.txPhase.clk := by
  obtain ⟨hceN, hclk⟩ := h
  rw [State.txStep_ceN, State.txStep_clk, State.txStep_txPhase, State.txDrive, State.txAction]
  cases hp : s.txPhase <;> rw [hp] at hceN hclk
  case opening =>
    cases s.params.explicitClkLow <;> simpa [txSuccessor, Phase.ceN, Phase.clk] using hclk
  case bitLow =>
    simp only [txSuccessor]
    split <;> exact ⟨hceN, hclk⟩
  all_goals simp [txSuccessor, Phase.ceN, Phase.clk, hceN, hclk]

/-- A phase that waits is entered by a line write (R141). -/
theorem State.drive_of_txStep_waits {s : State} (h : s.txStep.txPhase.waits = true) :
    ∃ l b, s.txAction = .drive l b := by
  rw [State.txStep_txPhase] at h
  unfold State.txAction
  cases hp : s.txPhase <;> rw [hp] at h <;> simp only [txSuccessor] at h
  case bitLow => split at h <;> cases h
  case opening | openClk | bitRise | bitFall | closing => exact ⟨_, _, rfl⟩
  all_goals cases h

/-- A phase after a settle wait is entered by that wait's exit (R141). -/
theorem State.wait_of_txStep_afterSettle {s : State} (h : s.txStep.txPhase.afterSettle = true) :
    s.txPhase.waits = true ∧ s.txAction = .wait Config.tSettle := by
  rw [State.txStep_txPhase] at h
  unfold State.txAction
  cases hp : s.txPhase <;> rw [hp] at h <;> simp only [txSuccessor] at h
  case opening => split at h <;> cases h
  case settle0 | bitHigh | bitLow => exact ⟨rfl, rfl⟩
  all_goals cases h

/-- The bit's `DATA` write gives the line its bit, and no step changes either while the bit is clocked (R157). -/
theorem State.txStep_dataHeld {s : State} (h : s.txPhase.holdsBit = true → s.data = s.txDataBit)
    (hb : s.txStep.txPhase.holdsBit = true) : s.txStep.data = s.txStep.txDataBit := by
  rw [State.txStep_txPhase] at hb
  rw [State.txDataBit, State.txStep_data, State.txStep_txWord, State.txStep_txBit, State.txDrive,
    State.txAction]
  cases hp : s.txPhase <;> rw [hp] at h hb <;> simp only [txSuccessor] at hb ⊢
  case opening => split at hb <;> cases hb
  case bitLow => split at hb <;> cases hb
  case bitData => simp [State.txDataBit]
  case bitRise => simpa [State.txDataBit] using h rfl
  case bitHigh => exact h rfl
  case bitFall => simpa [State.txDataBit] using h rfl
  all_goals cases hb

theorem State.Inv.txStep {s : State} (h : s.Inv) (hne : s.txPhase ≠ .idle) (hr : s.resetIn = false)
    (hen : s.txEnabled = true) : s.txStep.Inv where
  openClk ho := by
    rw [State.txStep_params]
    exact txSuccessor_eq_openClk ho
  lines := State.txStep_lines h.lines
  dataHeld := State.txStep_dataHeld h.dataHeld
  faultIdle hf := by
    rw [State.txStep_fault] at hf
    exact absurd (h.faultIdle hf) hne
  resetIdle := by simp [hr]
  waitEntry hw := by
    obtain ⟨l, b, ha⟩ := State.drive_of_txStep_waits hw
    rw [State.txStep_txT0, if_pos hw, State.txStep_history, State.txDrive_of_drive ha,
      State.writeLine_history, lastTime_append_event]
  settled hs := by
    obtain ⟨hw, ha⟩ := State.wait_of_txStep_afterSettle hs
    have hnw : s.txStep.txPhase.waits = false := by
      revert hs
      cases s.txStep.txPhase <;> simp [Phase.afterSettle, Phase.waits]
    have hpast : s.txT0 + Config.tSettle ≤ s.now := by simpa [State.txEnabled, ha] using hen
    rw [State.txStep_txT0, hnw, State.txStep_history, State.txDrive_of_wait ha,
      State.txStep_now]
    exact ⟨h.waitEntry hw, hpast⟩
  stampsOrdered := h.historyInv.txStep.stampsOrdered
  stampsPast := h.historyInv.txStep.stampsPast
  historyLevels := h.historyInv.txStep.historyLevels

/-! ## The statements -/

theorem State.Inv.step {s t : State} (h : s.Inv) (hst : step s = .next t) : t.Inv := by
  have hpop : s.popTurn.Inv := h.of_sameBlock (.popTurn s)
  rcases step_block_cases hst with ⟨hc, -, hacc⟩ | ⟨hr, hne, hen, rfl⟩ | ⟨-, rfl⟩ | hk
  · obtain ⟨hidle, hfault, hreset⟩ := (State.canAccept_iff s).1 hc
    rcases hacc with ⟨v, rfl⟩ | ⟨k, rfl⟩ | rfl
    · exact h.of_sameTransmitter (.writeRes s v) fun _ => ⟨hidle, hreset⟩
    · exact h.of_sameTransmitter (.raiseFault s k) fun _ => ⟨hidle, hreset⟩
    · exact h.beginSend hc
  · exact hpop.txStep hne hr hen
  · exact (h.of_sameBlock (.popPending s)).assertReset
  · exact h.of_sameBlock hk

/-- Settles O49: by what a step does to the block (`step_block_cases`). -/
theorem invariantIsKept : Obligations.InvariantIsKept :=
  fun _ _ => State.Inv.step

/-- Settles O50: the invariant has the lines at their levels of the phase. -/
theorem idleLines : Obligations.IdleLines := by
  refine ⟨⟨rfl, rfl⟩, fun s t h hst hidle => ?_⟩
  obtain ⟨hceN, hclk⟩ := (h.step hst).lines
  rw [hidle] at hceN hclk
  exact ⟨hclk, hceN⟩

end Sys2Proof.Machine
end

section
/-! PROOFS. Commands held and executed, the host's moves, and the one stop (R21 to R30, R36, R56, R100, R179). -/

namespace Sys2Proof.Machine

/-! ## Commands -/

/-- Settles O8: of the steps that are no host move only acceptance takes the command or writes `RES` or `FAULT`. -/
theorem presentedCommandIsHeld : Obligations.PresentedCommandIsHeld := by
  intro s t hc hp hn h
  rcases step_outcomes h with ⟨hacc, -⟩ | ⟨-, -, -, rfl⟩ | ⟨a, ha, -⟩ | ⟨dt, rfl⟩ | rfl | rfl
  · simp [hc] at hacc
  · simp [hp]
  · simp [hn] at ha
  all_goals simp [hp]

/-- An encoder command's acceptance ends in the finish of a result it computes (R100). -/
theorem exec_encoder {i : Instr} (hi : i ≠ .send) :
    ∃ r : State → EncoderResult, ∀ s, exec i s = accept s fun s => s.finish (r s) := by
  cases i with
  | octave => exact ⟨fun s => octaveResult s.params s.f, fun _ => rfl⟩
  | dac => exact ⟨fun s => dacResult s.params s.f s.octaveOperand, fun _ => rfl⟩
  | pack => exact ⟨fun s => packResult (sint s.x) (sint s.y) (sint s.z), fun _ => rfl⟩
  | encode => exact ⟨fun s => encodeResult s.params s.f, fun _ => rfl⟩
  | send => exact absurd rfl hi

/-- Settles O25: an accepted encoder command writes `RES`, or raises a fault in an unfaulted block. -/
theorem encoderFrame : Obligations.EncoderFrame := by
  intro i s t hi hc h
  obtain ⟨-, hfault, -⟩ := (State.canAccept_iff s).1 hc
  obtain ⟨r, hr⟩ := exec_encoder hi
  rw [hr, accept_of_canAccept hc] at h
  cases h
  rcases s.take.finish_cases (r s.take) with ⟨v, -, hv⟩ | ⟨k, -, hk⟩
  · rw [hv]
    exact ⟨rfl, .inr ⟨by simp, hfault⟩⟩
  · rw [hk]
    exact ⟨rfl, .inl ⟨rfl, by simp⟩⟩

/-! ## The host's state and the host's moves -/

/-- Settles O41: the command unit writes `RES`, `FAULT` or starts a SEND, and the transmitter writes
its own state and the lines. -/
theorem blockNeverWritesHostState : Obligations.BlockNeverWritesHostState := by
  intro s t hn h
  rcases step_outcomes h with ⟨-, -, ⟨v, rfl⟩ | ⟨k, rfl⟩ | rfl⟩ | ⟨-, -, -, rfl⟩ | ⟨a, ha, -⟩ |
    ⟨dt, rfl⟩ | rfl | rfl
  case inr.inr.inl => simp [hn] at ha
  all_goals simp

theorem hostMove_copyRes {s : State} {v : Word32} (h : s.res = some v) (p : IntPort) :
    hostMove (.copyRes p) s = .next (s.setIntPort v p) := by
  simp [hostMove, h]

/-- The step in which the host copies a written result (R25, R80). -/
theorem step_copyRes {s : State} {v : Word32} {p : IntPort} (hres : s.res = some v)
    (h : s.nextHostMove = some (.copyRes p)) :
    step s = .next (s.popTurn.popPending.setIntPort v p) :=
  (step_of_nextHostMove h).trans (hostMove_copyRes (s := s.popTurn.popPending) hres p)

/-- Settles O43: the step is the host's move. -/
theorem enableLinesFollowTheHost : Obligations.EnableLinesFollowTheHost :=
  fun _ _ => ⟨step_of_nextHostMove, step_of_nextHostMove⟩

/-- Settles O57: the step is the host's move, and a copy is one of a written result. -/
theorem hostWritesLand : Obligations.HostWritesLand :=
  fun _ => ⟨fun _ => step_of_nextHostMove, fun _ => step_of_nextHostMove,
    fun _ => step_of_nextHostMove, fun _ => step_of_nextHostMove, fun _ => step_copyRes,
    fun _ => step_copyRes, fun _ => step_copyRes, fun _ => step_of_nextHostMove⟩

/-- Settles O47: the values stand in `State.reset`. -/
theorem resetStateAsTheSpecGivesIt : Obligations.ResetStateAsTheSpecGivesIt := by
  unfold Obligations.ResetStateAsTheSpecGivesIt
  decide

/-! ## The one stop (R25, log 4) -/

/-- A host move stops the machine exactly where it copies an unwritten result. -/
theorem hostMove_eq_fault_iff {a : HostMove} {s : State} {r : Fault} :
    hostMove a s = .fault r ↔ r = .resUnwritten ∧ s.res = none ∧ ∃ p, a = .copyRes p := by
  cases a with
  | copyRes p => cases hres : s.res <;> simp [hostMove, hres, eq_comm]
  | _ => simp [hostMove]

theorem hostMove_ne_refused (a : HostMove) (s : State) (r : Refusal) :
    hostMove a s ≠ .refused r := by
  cases a with
  | copyRes p => cases hres : s.res <;> simp [hostMove, hres]
  | _ => simp [hostMove]

theorem letBlock_next (s : State) : ∃ t, letBlock s = .next t := by
  unfold letBlock
  split
  · exact blockStep_next s
  · exact ⟨s, rfl⟩

/-- A step that is no host move always answers a next state. -/
theorem step_next_of_noHostMove {s : State} (h : s.nextHostMove = none) : ∃ t, step s = .next t := by
  rw [step, systemStep]
  cases ht : s.turns with
  | nil => exact letBlock_next _
  | cons w ws =>
    cases w with
    | block => exact letBlock_next _
    | time dt => exact ⟨_, rfl⟩
    | host =>
      change ∃ t, hostTurn s.popTurn = .next t
      unfold hostTurn
      split
      · exact ⟨_, rfl⟩
      · split <;> exact ⟨_, rfl⟩
      · rename_i a p hp
        rw [State.nextHostMove_iff.2 ⟨ws, p, ht, hp⟩] at h
        cases h

/-- Settles O40: only a host move can stop, and only the copy of an unwritten result does. -/
theorem onlyReadingUnwrittenResStops : Obligations.OnlyReadingUnwrittenResStops := by
  intro s
  cases hn : s.nextHostMove with
  | none =>
    obtain ⟨t, ht⟩ := step_next_of_noHostMove hn
    simp [ht]
  | some a =>
    rw [step_of_nextHostMove hn]
    exact ⟨hostMove_ne_refused _ _, fun r => by simp [hostMove_eq_fault_iff]⟩

end Sys2Proof.Machine
end

section
/-! PROOFS. Time and the line history under a step (20_memory.md): R55, R58, R180. -/

namespace Sys2Proof.Machine

/-! ## Appended events (R55) -/

/-- The history of `t` is that of `s` and at most `n` events after it, all stamped with the time of `s`. -/
def State.Appends (s : State) (n : Nat) (t : State) : Prop :=
  ∃ es : List LineEvent, t.history = s.history ++ es ∧ (∀ e ∈ es, e.time = s.now) ∧ es.length ≤ n

theorem State.Appends.of_history_eq {s t : State} (h : t.history = s.history) : s.Appends 0 t :=
  ⟨[], by simpa using h, by simp, le_rfl⟩

theorem State.Appends.mono {s t : State} {m n : Nat} (h : s.Appends m t) (hmn : m ≤ n) :
    s.Appends n t := by
  obtain ⟨es, hes, hstamp, hlen⟩ := h
  exact ⟨es, hes, hstamp, hlen.trans hmn⟩

/-- Events appended one after another at one time. -/
theorem State.Appends.trans {s t u : State} {m n : Nat} (hst : s.Appends m t) (hnow : t.now = s.now)
    (htu : t.Appends n u) : s.Appends (m + n) u := by
  obtain ⟨es, hes, hstamp, hlen⟩ := hst
  obtain ⟨es', hes', hstamp', hlen'⟩ := htu
  refine ⟨es ++ es', by rw [hes', hes, List.append_assoc], fun e he => ?_, ?_⟩
  · rcases List.mem_append.1 he with he | he
    · exact hstamp e he
    · exact (hstamp' e he).trans hnow
  · rw [List.length_append]
    exact Nat.add_le_add hlen hlen'

theorem State.appends_writeLine (s : State) (l : Line) (b : Level) : s.Appends 1 (s.writeLine l b) :=
  ⟨[⟨l, b, s.now⟩], s.writeLine_history l b, by simp, le_rfl⟩

theorem State.appends_resetLine (s : State) (l : Line) (b : Level) : s.Appends 1 (s.resetLine l b) := by
  unfold State.resetLine
  split
  · exact (Appends.of_history_eq rfl).mono zero_le_one
  · exact s.appends_writeLine l b

/-- Asserting reset resets the three lines one after another, each with at most one event (R190). -/
theorem State.appends_assertReset (s : State) : s.Appends 3 s.assertReset :=
  have hdataClk := (s.appends_resetLine .data _).trans (by simp) (appends_resetLine _ .clk _)
  hdataClk.trans (by simp) (appends_resetLine _ .ceN _)

theorem State.appends_txStep (s : State) : s.Appends 1 s.txStep := by
  rcases s.txDrive_cases with ⟨l, b, -, h⟩ | h
  · obtain ⟨es, hes, hrest⟩ := s.appends_writeLine l b
    exact ⟨es, by rw [State.txStep_history, h, hes], hrest⟩
  · exact (Appends.of_history_eq (by rw [State.txStep_history, h])).mono zero_le_one

/-! ## Every step -/

theorem step_now_le {s t : State} (h : step s = .next t) : s.now ≤ t.now := by
  rcases step_block_cases h with ⟨-, -, ⟨v, rfl⟩ | ⟨k, rfl⟩ | rfl⟩ | ⟨-, -, -, rfl⟩ | ⟨-, rfl⟩ | hk
  case inr.inr.inr => exact hk.now_le
  all_goals simp

/-- A step appends to the line history, and more than one event only where it asserts reset (R55, R190). -/
theorem step_appends {s t : State} (h : step s = .next t) :
    ∃ n, s.Appends n t ∧ (s.resetNext = false → n ≤ 1) := by
  rcases step_block_cases h with ⟨-, -, hacc⟩ | ⟨-, -, -, rfl⟩ | ⟨hr, rfl⟩ | hk
  · have hsame : t.history = s.history := by
      rcases hacc with ⟨v, rfl⟩ | ⟨k, rfl⟩ | rfl <;> simp
    exact ⟨0, .of_history_eq hsame, fun _ => zero_le_one⟩
  · exact ⟨1, s.popTurn.appends_txStep, fun _ => le_rfl⟩
  · exact ⟨3, s.popTurn.popPending.appends_assertReset, fun hn => by simp [hr] at hn⟩
  · exact ⟨0, .of_history_eq hk.history, fun _ => zero_le_one⟩

/-- The listed turn of the time base, as the whole next state (R180). -/
theorem step_of_listed_time {s : State} {dt : Nat} {w : List Turn} (h : s.turns = .time dt :: w) :
    step s = .next { s with turns := w, now := s.now + dt } := by
  rw [step_of_timeTurn (dt := dt) (by rw [h, List.headD_cons]), State.popTurn, h]
  rfl

/-- Settles O44: by what a step does to the block (`step_block_cases`); only reset writes more than one line. -/
theorem historyOnlyGrows : Obligations.HistoryOnlyGrows := by
  refine ⟨fun s dt w => step_of_listed_time, fun s t h => ⟨step_now_le h, ?_⟩⟩
  obtain ⟨n, ⟨es, hes, hstamp, hlen⟩, hn⟩ := step_appends h
  exact ⟨es, hes, hstamp, fun hr => hlen.trans (hn hr)⟩

end Sys2Proof.Machine
end

section
/-! PROOFS. Command words (30_encoding.md): their fields, what they decode to, and which raise `IllegalCommand`
(R70 to R72, R78, R171 to R174). -/

namespace Sys2Proof.Machine

/-! ## The fields of a command word (R70) -/

theorem toNat_opField (c : Word32) : (opField c).toNat = c.toNat % 8 := by
  rw [opField, BitVec.extractLsb'_toNat, Nat.shiftRight_zero]

theorem toNat_rsvField (c : Word32) : (rsvField c).toNat = c.toNat / 8 := by
  have hc := c.isLt
  rw [rsvField, BitVec.extractLsb'_toNat, Nat.shiftRight_eq_div_pow]
  omega

theorem rsvField_eq_zero_iff {c : Word32} : rsvField c = 0 ↔ c.toNat / 8 = 0 := by
  rw [← toNat_rsvField]
  exact BitVec.toNat_inj.symm

/-- A word is determined by its two fields. -/
theorem word_eq_of_fields {c d : Word32} (hrsv : rsvField c = rsvField d)
    (hop : opField c = opField d) : c = d := by
  have hdiv : c.toNat / 8 = d.toNat / 8 := by rw [← toNat_rsvField, hrsv, toNat_rsvField]
  have hmod : c.toNat % 8 = d.toNat % 8 := by rw [← toNat_opField, hop, toNat_opField]
  exact BitVec.eq_of_toNat_eq (by omega)

theorem encodedFields (i : Instr) : Laws.EncodedFields.Statement i := by
  cases i with
  | octave => exact Laws.EncodedFields.octave
  | dac => exact Laws.EncodedFields.dac
  | pack => exact Laws.EncodedFields.pack
  | encode => exact Laws.EncodedFields.encode
  | send => exact Laws.EncodedFields.send

/-- The word of a command is the one with its selector below zeros (R70, R71). -/
theorem eq_encode_iff {c : Word32} {i : Instr} :
    c = encode i ↔ rsvField c = 0 ∧ opField c = opOf i := by
  obtain ⟨-, hrsv, hop, -⟩ := encodedFields i
  constructor
  · rintro rfl
    exact ⟨hrsv, hop⟩
  · rintro ⟨hrsv', hop'⟩
    exact word_eq_of_fields (hrsv'.trans hrsv.symm) (hop'.trans hop.symm)

/-! ## What a word decodes to (R71, R72, R78) -/

theorem decode_of_rsv_ne_zero {c : Word32} (h : rsvField c ≠ 0) :
    decode c = .reserved .reservedBits :=
  if_pos h

/-- Below zeros, the selector alone decides the command (R71): the eight values, one by one. -/
theorem decode_eq_command_iff_op {c : Word32} {i : Instr} (h : rsvField c = 0) :
    decode c = .command i ↔ opField c = opOf i := by
  rw [decode, if_neg (not_not.2 h)]
  generalize opField c = op
  cases i <;> revert op <;> decide

/-- Below zeros, the selectors that are no command's are reserved (R78). -/
theorem decode_reserved_iff_op {c : Word32} (h : rsvField c = 0) :
    (∃ why, decode c = .reserved why) ↔ (opField c).toNat ∈ [5, 6, 7] := by
  rw [decode, if_neg (not_not.2 h)]
  split_ifs
  case neg =>
    have hop : (opField c).toNat = 5 ∨ (opField c).toNat = 6 ∨ (opField c).toNat = 7 := by bv_omega
    simpa using hop
  all_goals simp [*]

theorem decode_eq_command_iff {c : Word32} {i : Instr} :
    decode c = .command i ↔ rsvField c = 0 ∧ opField c = opOf i := by
  by_cases hrsv : rsvField c = 0
  · rw [decode_eq_command_iff_op hrsv, and_iff_right hrsv]
  · rw [decode_of_rsv_ne_zero hrsv]
    exact iff_of_false Decoded.noConfusion fun h => hrsv h.1

theorem decode_reserved_iff {c : Word32} :
    (∃ why, decode c = .reserved why) ↔ c.toNat / 8 ≠ 0 ∨ c.toNat % 8 ∈ [5, 6, 7] := by
  rw [← toNat_opField, ← rsvField_eq_zero_iff.ne]
  by_cases hrsv : rsvField c = 0
  · rw [decode_reserved_iff_op hrsv, or_iff_right (not_not.2 hrsv)]
  · exact iff_of_true ⟨_, decode_of_rsv_ne_zero hrsv⟩ (.inl hrsv)

/-- Settles O2: a word is determined by its fields, and a word decodes to a command by them. -/
theorem onlyTheFiveWordsAreCommands : Obligations.OnlyTheFiveWordsAreCommands :=
  fun _ _ => decode_eq_command_iff.trans eq_encode_iff.symm

/-- Settles O1: the word of a command is the one that decodes to it. -/
theorem decodeInvertsEncode : Obligations.DecodeInvertsEncode :=
  fun i => (onlyTheFiveWordsAreCommands (encode i) i).2 rfl

/-- Settles O3: by evaluation of the nine words. -/
theorem tableWordsDecode : Obligations.TableWordsDecode := by
  unfold Obligations.TableWordsDecode
  decide

/-! ## Accepting a reserved word (R78, R171, R173) -/

/-- The block's turn, where it can accept a presented command. -/
theorem step_of_acceptable {s : State} (hc : s.canAccept = true) (hp : s.presented = true)
    (hturn : s.turns.headD .block = .block) : step s = acceptCommand s.popTurn := by
  have hidle : s.popTurn.txPhase = .idle := ((State.canAccept_iff s).1 hc).1
  have hen : s.popTurn.blockEnabled = true := (State.blockEnabled_iff s).2 (.inl ⟨hc, hp⟩)
  rw [step_of_blockTurn hturn, letBlock, if_pos hen, blockStep, if_pos hidle]

theorem acceptCommand_of_reserved {s : State} (hc : s.canAccept = true)
    (hd : ∃ why, decode s.cmd = .reserved why) :
    acceptCommand s = .next (s.take.raiseFault .illegalCommand) := by
  obtain ⟨why, hd⟩ := hd
  rw [acceptCommand, hd]
  exact accept_of_canAccept hc _

/-- Settles O4: the reserved words by their fields, and the step is the acceptance of one. -/
theorem reservedWordsRaiseIllegalCommand : Obligations.ReservedWordsRaiseIllegalCommand := by
  refine fun c => ⟨decode_reserved_iff, ?_⟩
  rintro s hc hp rfl hturns hres
  have hstep : step s = acceptCommand s := by
    rw [step_of_acceptable hc hp (by rw [hturns]; rfl), State.popTurn_of_nil hturns]
  refine ⟨s.take.raiseFault .illegalCommand, ?_, rfl, rfl⟩
  rw [hstep, acceptCommand_of_reserved hc (decode_reserved_iff.2 hres)]

/-! ## Accepting a command (R104, R107, R109, R111, R140) -/

theorem classify_ne_illegalCommand (p : Params) (v : F64) :
    classify p v ≠ .raises .illegalCommand := by
  unfold classify
  split_ifs <;> simp

theorem byClass_ne_illegalCommand {p : Params} {v : F64} {guarded : Word32} {r : EncoderResult}
    (h : r ≠ .raises .illegalCommand) : byClass p v guarded r ≠ .raises .illegalCommand := by
  unfold byClass
  cases hclass : classify p v with
  | raises k =>
    rintro ⟨rfl⟩
    exact classify_ne_illegalCommand p v hclass
  | nonPos => simp
  | pos => exact h

theorem dacResult_ne_illegalCommand (p : Params) (v : F64) (o : Int) :
    dacResult p v o ≠ .raises .illegalCommand := by
  refine byClass_ne_illegalCommand ?_
  split_ifs <;> simp

/-- An accepted encoder command leaves in `FAULT` only what its result raises (R100). -/
theorem accept_finish_ne_illegalCommand {s : State} (hc : s.canAccept = true)
    {r : State → EncoderResult} (hr : ∀ s, r s ≠ .raises .illegalCommand) :
    ∃ t, accept s (fun s => s.finish (r s)) = .next t ∧ t.fault ≠ some .illegalCommand := by
  obtain ⟨-, hfault, -⟩ := (State.canAccept_iff s).1 hc
  refine ⟨_, accept_of_canAccept hc _, ?_⟩
  rcases s.take.finish_cases (r s.take) with ⟨v, -, hv⟩ | ⟨k, hraises, hk⟩
  · simp [hv, hfault]
  · rw [hk, State.raiseFault_fault]
    rintro ⟨rfl⟩
    exact hr s.take hraises

/-- Settles O51: no encoder command's result raises it, and SEND leaves the fault of an unfaulted block. -/
theorem commandsNeverRaiseIllegalCommand : Obligations.CommandsNeverRaiseIllegalCommand := by
  intro i s hc
  obtain ⟨-, hfault, -⟩ := (State.canAccept_iff s).1 hc
  cases i with
  | octave =>
    exact accept_finish_ne_illegalCommand (r := fun s => octaveResult s.params s.f) hc
      fun _ => byClass_ne_illegalCommand (by simp)
  | dac =>
    exact accept_finish_ne_illegalCommand (r := fun s => dacResult s.params s.f s.octaveOperand) hc
      fun _ => dacResult_ne_illegalCommand _ _ _
  | pack =>
    exact accept_finish_ne_illegalCommand (r := fun s => packResult (sint s.x) (sint s.y) (sint s.z)) hc
      fun _ => by simp [packResult]
  | encode =>
    exact accept_finish_ne_illegalCommand (r := fun s => encodeResult s.params s.f) hc
      fun _ => byClass_ne_illegalCommand (by simp)
  | send => exact ⟨_, accept_of_canAccept hc _, by simp [hfault]⟩

end Sys2Proof.Machine
end

section
/-! PROOFS. The control word and its bits (30_encoding.md): packed fields read back (R75, R76), and the order
of the bits in a SEND's `DATA` events (R77, R145, R151). -/

namespace Sys2Proof.Machine

/-! ## Packed fields (R75, R76) -/

theorem toNat_bitsOf (n : Nat) (k : ℤ) : ((bitsOf n k).toNat : ℤ) = k % 2 ^ n := by
  rw [bitsOf, BitVec.toNat_ofInt, Int.toNat_of_nonneg (Int.emod_nonneg _ (by positivity))]
  norm_cast

theorem packWord_octaveField (o d c : ℤ) : (packWord o d c).extractLsb' 12 4 = bitsOf 4 o := by
  rw [packWord, BitVec.extractLsb'_append_eq_of_le (by decide)]
  exact BitVec.extractLsb'_append_eq_left

theorem packWord_dacField (o d c : ℤ) : (packWord o d c).extractLsb' 2 10 = bitsOf 10 d := by
  rw [packWord, BitVec.extractLsb'_append_eq_of_le (by decide)]
  exact BitVec.extractLsb'_append_eq_right

theorem packWord_configField (o d c : ℤ) : (packWord o d c).extractLsb' 0 2 = bitsOf 2 c :=
  BitVec.extractLsb'_append_eq_right

/-- Settles O26: each field is the integer's low bits. -/
theorem packedFieldsReadBack : Obligations.PackedFieldsReadBack := by
  intro o d c
  rw [packWord_octaveField, packWord_dacField, packWord_configField]
  exact ⟨toNat_bitsOf 4 o, toNat_bitsOf 10 d, toNat_bitsOf 2 c⟩

/-! ## The bits of a word, most significant first (R77) -/

/-- Settles O31: the element for bit index `16 - k` (`getElem?_msbFirst`). -/
theorem bitsGoMostSignificantFirst : Obligations.BitsGoMostSignificantFirst := by
  intro w k hlow hhigh
  have hi : (BitVec.ofNat 4 (16 - k)).toNat = 16 - k := by
    rw [BitVec.toNat_ofNat]
    omega
  have hk : 15 - (16 - k) = k - 1 := by omega
  have hget := getElem?_msbFirst w (BitVec.ofNat 4 (16 - k))
  rwa [hi, hk] at hget

/-! ## The `DATA` events of a SEND (R145, R151) -/

/-- The levels of the `DATA` events of a write trace. -/
def dataLevels (events : List (Line × Level)) : List Level :=
  (events.filter (·.1 = .data)).map (·.2)

theorem dataLevels_append (es es' : List (Line × Level)) :
    dataLevels (es ++ es') = dataLevels es ++ dataLevels es' := by
  simp [dataLevels]

theorem dataLevels_flatMap_bitTrace (bits : List Level) :
    dataLevels (bits.flatMap bitTrace) = bits := by
  induction bits with
  | nil => rfl
  | cons b bits ih => rw [List.flatMap_cons, dataLevels_append, ih]; rfl

/-- The opening and the closing write no `DATA`. -/
theorem dataLevels_sendTrace (e : Bool) (w : Word16) : dataLevels (sendTrace e w) = msbFirst w := by
  have hopen : dataLevels (if e then [(.clk, false)] else []) = [] := by cases e <;> rfl
  rw [sendTrace, dataLevels_append, dataLevels_append, dataLevels_append, hopen,
    dataLevels_flatMap_bitTrace]
  exact List.append_nil _

/-- Settles O52: a SEND completes with its whole write trace, whose `DATA` levels are the word's bits. -/
theorem dataEventsAreMostSignificantFirst : Obligations.DataEventsAreMostSignificantFirst := by
  intro s t before w hs hr h hidle
  obtain ⟨-, -, hsending | ⟨-, -, hwrites⟩⟩ := sendTraceUnderEverySchedule.2 s t before w hs hr h
  · exact absurd hidle hsending.1
  · refine ⟨_, hwrites, fun k hlow hhigh => ?_⟩
    change (dataLevels (sendTrace _ w))[k - 1]? = _
    rw [dataLevels_sendTrace]
    exact bitsGoMostSignificantFirst w k hlow hhigh

end Sys2Proof.Machine
end

section
/-! PROOFS. The encoder commands (40_encoder.md): the packed word (R75, R109, R110), what each command writes or
raises (R104, R105, R107, R109, R111, R174), and that it depends on its operands alone (R112). -/

namespace Sys2Proof.Machine

/-! ## The packed word (R75, R109, R110) -/

theorem bitsOf_add_mul_two_pow (n : Nat) (k j : ℤ) : bitsOf n (k + 2 ^ n * j) = bitsOf n k := by
  apply BitVec.eq_of_toNat_eq
  zify
  rw [toNat_bitsOf, toNat_bitsOf, Int.add_mul_emod_self_left]

/-- Settles O27: each field depends on its operand's low bits alone, and the fields read back. -/
theorem packingMasks : Obligations.PackingMasks := by
  constructor
  · intro o d c k
    exact ⟨congrArg (· ++ bitsOf 10 d ++ bitsOf 2 c) (bitsOf_add_mul_two_pow 4 o k),
      congrArg (bitsOf 4 o ++ · ++ bitsOf 2 c) (bitsOf_add_mul_two_pow 10 d k),
      congrArg (bitsOf 4 o ++ bitsOf 10 d ++ ·) (bitsOf_add_mul_two_pow 2 c k)⟩
  · intro o d c o' d' c' h
    obtain ⟨ho, hd, hc⟩ := packedFieldsReadBack o d c
    rw [h] at ho hd hc
    obtain ⟨ho', hd', hc'⟩ := packedFieldsReadBack o' d' c'
    exact ⟨ho.symm.trans ho', hd.symm.trans hd', hc.symm.trans hc'⟩

theorem toNat_eq_fields (w : Word16) : w.toNat = (w.extractLsb' 12 4).toNat * 4096 +
    (w.extractLsb' 2 10).toNat * 4 + (w.extractLsb' 0 2).toNat := by
  have hw := w.isLt
  simp only [BitVec.extractLsb'_toNat, Nat.shiftRight_eq_div_pow]
  omega

/-- The value of a packed word, zero-extended to the width of `RES`. -/
theorem toNat_packWord (o d c : ℤ) : (((packWord o d c).setWidth 32).toNat : ℤ) =
    o % 16 * 4096 + d % 1024 * 4 + c % 4 := by
  obtain ⟨ho, hd, hc⟩ := packedFieldsReadBack o d c
  rw [BitVec.toNat_setWidth_of_le (by decide), toNat_eq_fields, ← ho, ← hd, ← hc]
  push_cast
  rfl

theorem sint_emod_of_dvd (v : Word32) {m : ℤ} (hm : m ∣ 2 ^ 32) : sint v % m = v.toNat % m := by
  have hword : sint v % 2 ^ 32 = v.toNat % 2 ^ 32 := by
    rw [sint, BitVec.toInt_eq_toNat_bmod]
    exact Int.bmod_emod
  rw [← Int.emod_emod_of_dvd (sint v) hm, hword, Int.emod_emod_of_dvd _ hm]

/-! ## The result for each class of a frequency (R104) -/

section
variable {p : Params} {v : F64} {guarded : Word32} {r : EncoderResult}

theorem byClass_of_raises {k : FaultKind} (h : classify p v = .raises k) :
    byClass p v guarded r = .raises k := by rw [byClass, h]

theorem byClass_of_nonPos (h : classify p v = .nonPos) : byClass p v guarded r = .value guarded := by
  rw [byClass, h]

theorem byClass_of_pos (h : classify p v = .pos) : byClass p v guarded r = r := by rw [byClass, h]

end

theorem dacExponentOk_iff {p : Params} {o : ℤ} :
    dacExponentOk p o = true ↔ p.eMin ≤ 10 + o ∧ 10 + o ≤ p.eMax := by
  rw [dacExponentOk, Bool.and_eq_true, decide_eq_true_iff, decide_eq_true_iff]
  rfl

section
variable {p : Params} {v : F64} {o : ℤ}

theorem dacResult_of_exponent_range (h : classify p v = .pos)
    (ho : 10 + o < p.eMin ∨ p.eMax < 10 + o) : dacResult p v o = .raises .dacExponentRange := by
  have hok : dacExponentOk p o = false := by
    rw [← Bool.not_eq_true, dacExponentOk_iff]
    omega
  rw [dacResult, byClass_of_pos h, hok]
  rfl

theorem dacResult_of_int_range (h : classify p v = .pos) (hmin : p.eMin ≤ 10 + o)
    (hmax : 10 + o ≤ p.eMax) (hd : dacEval p v o < intMin p ∨ intMax p < dacEval p v o) :
    dacResult p v o = .raises .dacIntRange := by
  have hfits : dacFits p v o = false := by
    rw [← Bool.not_eq_true, dacFits_iff h]
    omega
  rw [dacResult, byClass_of_pos h, dacExponentOk_iff.2 ⟨hmin, hmax⟩, hfits]
  rfl

theorem dacResult_of_fits (h : classify p v = .pos) (hmin : p.eMin ≤ 10 + o) (hmax : 10 + o ≤ p.eMax)
    (hlo : intMin p ≤ dacEval p v o) (hhi : dacEval p v o ≤ intMax p) :
    dacResult p v o = .value (bitsOf 32 (dacEval p v o)) := by
  rw [dacResult, byClass_of_pos h, dacExponentOk_iff.2 ⟨hmin, hmax⟩,
    (dacFits_iff h o).2 ⟨hlo, hhi⟩]
  rfl

end

/-! ## The commands (R105, R107, R109, R111) -/

section
variable {s : State} (hc : s.canAccept = true)
include hc

theorem exec_octave_of_canAccept :
    exec .octave s = .next (s.take.finish (octaveResult s.params s.f)) :=
  accept_of_canAccept hc fun s => s.finish (octaveResult s.params s.f)

theorem exec_dac_of_canAccept :
    exec .dac s = .next (s.take.finish (dacResult s.params s.f (sint s.x))) :=
  accept_of_canAccept hc fun s => s.finish (dacResult s.params s.f s.octaveOperand)

theorem exec_pack_of_canAccept :
    exec .pack s = .next (s.take.finish (packResult (sint s.x) (sint s.y) (sint s.z))) :=
  accept_of_canAccept hc fun s => s.finish (packResult (sint s.x) (sint s.y) (sint s.z))

theorem exec_encode_of_canAccept :
    exec .encode s = .next (s.take.finish (encodeResult s.params s.f)) :=
  accept_of_canAccept hc fun s => s.finish (encodeResult s.params s.f)

end

/-- Settles O9: by the class of `F`. -/
theorem Encoder.octaveResult : Obligations.OctaveResult := by
  intro s hc
  rw [exec_octave_of_canAccept hc, Machine.octaveResult]
  refine ⟨fun k h => ?_, fun h => ?_, fun h => ?_⟩
  · rw [byClass_of_raises h]; rfl
  · rw [byClass_of_nonPos h]; rfl
  · rw [byClass_of_pos h]; rfl

/-- Settles O10: by the class of `F`, then the range of the exponent, then that of the DAC value. -/
theorem Encoder.dacResult : Obligations.DacResult := by
  intro s hc
  rw [exec_dac_of_canAccept hc]
  refine ⟨fun k h => ?_, fun h => ?_, fun h ho => ?_, fun h hmin hmax hd => ?_,
    fun h hmin hmax hlo hhi => ?_⟩
  · rw [Machine.dacResult, byClass_of_raises h]; rfl
  · rw [Machine.dacResult, byClass_of_nonPos h]; rfl
  · rw [dacResult_of_exponent_range h ho]; rfl
  · rw [dacResult_of_int_range h hmin hmax hd]; rfl
  · rw [dacResult_of_fits h hmin hmax hlo hhi]; rfl

/-- Settles O11: the packed word's value (`toNat_packWord`), and a two's complement operand has the low bits of
its pattern. -/
theorem Encoder.packResult : Obligations.PackResult := by
  intro s hc
  refine ⟨_, _, ?_, exec_pack_of_canAccept hc, rfl, rfl⟩
  zify
  rw [toNat_packWord, sint_emod_of_dvd _ (by norm_num), sint_emod_of_dvd _ (by norm_num),
    sint_emod_of_dvd _ (by norm_num)]

/-- Settles O12: by the class of `F`; the word is packed from the two values and a configuration of 0. -/
theorem Encoder.encodeResult : Obligations.EncodeResult := by
  intro s hc
  rw [exec_encode_of_canAccept hc, Machine.encodeResult]
  refine ⟨fun k h => ?_, fun h => ?_, fun h => ⟨_, ?_, by rw [byClass_of_pos h]; rfl⟩⟩
  · rw [byClass_of_raises h]; rfl
  · rw [byClass_of_nonPos h]; rfl
  · rw [controlWord, toNat_packWord]
    simp [Config.cnfFixed]

/-! ## Purity (R112) -/

/-- One result, finished in two unfaulted blocks, leaves the same fault, and without one the same `RES`. -/
theorem State.finish_pure {s t : State} (hs : s.canAccept = true) (ht : t.canAccept = true)
    (r : EncoderResult) : (s.take.finish r).fault = (t.take.finish r).fault ∧
      ((s.take.finish r).fault = none →
        (s.take.finish r).res = (t.take.finish r).res ∧ (s.take.finish r).res ≠ none) := by
  obtain ⟨-, hsf, -⟩ := (State.canAccept_iff s).1 hs
  obtain ⟨-, htf, -⟩ := (State.canAccept_iff t).1 ht
  cases r with
  | value v => exact ⟨hsf.trans htf.symm, fun _ => ⟨rfl, by simp [State.finish]⟩⟩
  | raises k => exact ⟨rfl, fun h => by simp [State.finish] at h⟩

/-- Settles O24: two acceptances with the same operands finish with the same result. -/
theorem encoderCommandsArePure : Obligations.EncoderCommandsArePure := by
  intro s t hp hs ht
  refine ⟨fun hf => ?_, fun hf => ?_, fun hf hx => ?_, fun hx hy hz => ?_⟩
  · refine ⟨_, _, exec_octave_of_canAccept hs, exec_octave_of_canAccept ht, ?_⟩
    rw [hp, hf]
    exact State.finish_pure hs ht _
  · refine ⟨_, _, exec_encode_of_canAccept hs, exec_encode_of_canAccept ht, ?_⟩
    rw [hp, hf]
    exact State.finish_pure hs ht _
  · refine ⟨_, _, exec_dac_of_canAccept hs, exec_dac_of_canAccept ht, ?_⟩
    rw [hp, hf, hx]
    exact State.finish_pure hs ht _
  · refine ⟨_, _, exec_pack_of_canAccept hs, exec_pack_of_canAccept ht, ?_⟩
    rw [hx, hy, hz]
    exact ⟨rfl, by simp [State.finish, packResult], ((State.canAccept_iff s).1 hs).2.1⟩

end Sys2Proof.Machine
end

section
/-! PROOFS. The classes of a frequency by its real value (R53, R104). -/

namespace Sys2Proof.Machine

open Sys2Proof.Admitted

/-! ## Admissible parameters (R9) -/

theorem admissible_iff (p : Params) : admissible p = true ↔
    (0 < p.epsOct.den ∧ p.epsOct.num ≤ p.epsOct.den) ∧ (0 < p.epsDac.den ∧ p.epsDac.num ≤ p.epsDac.den) ∧
      (12 ≤ p.wInt ∧ p.wInt ≤ 32) ∧
      f64FinitePositive p.fModelLo = true ∧ f64FinitePositive p.fModelHi = true := by
  simp [admissible, isTolerance, and_assoc]

/-! ## Patterns and their values (R53) -/

theorem toNat_eq_f64Fields (v : F64) :
    v.toNat = (f64Sign v).toNat * 2 ^ 63 + f64Exponent v * 2 ^ 52 + f64Fraction v := by
  have hv := v.isLt
  rw [f64Sign, BitVec.getLsbD, Nat.toNat_testBit, f64Exponent, f64Fraction, BitVec.extractLsb'_toNat,
    BitVec.extractLsb'_toNat, Nat.shiftRight_eq_div_pow, Nat.shiftRight_eq_div_pow]
  omega

theorem f64Exponent_le_max (v : F64) : f64Exponent v ≤ f64ExponentMax :=
  Nat.le_of_lt_succ (v.extractLsb' 52 11).isLt

/-- A pattern with the largest exponent is a NaN or an infinity. -/
theorem nan_or_infinite {v : F64} (h : ¬isFinite v) :
    (f64Exponent v = 2047 ∧ f64Fraction v ≠ 0) ∨ v = 0x7FF0000000000000 ∨ v = 0xFFF0000000000000 := by
  have hexp : f64Exponent v = 2047 := (f64Exponent_le_max v).antisymm (not_lt.1 h)
  by_cases hfrac : f64Fraction v = 0
  · have hv := toNat_eq_f64Fields v
    rw [hexp, hfrac] at hv
    right
    cases hs : f64Sign v <;> rw [hs] at hv
    · exact .inl (BitVec.eq_of_toNat_eq hv)
    · exact .inr (BitVec.eq_of_toNat_eq hv)
  · exact .inl ⟨hexp, hfrac⟩

theorem val_nonpos_of_sign {v : F64} (h : f64Sign v = true) : val v ≤ 0 := by
  rw [val, if_pos h, neg_one_mul, neg_nonpos]
  split <;> positivity

/-- The order of two values without sign is that of their magnitudes. -/
theorem val_lt_val_iff {v w : F64} (hv : f64Sign v = false) (hw : f64Sign w = false) :
    val v < val w ↔ f64Scaled v < f64Scaled w := by
  rw [val_eq_scaled hv, val_eq_scaled hw, div_lt_div_iff_of_pos_right (pow_pos two_pos 1074),
    Nat.cast_lt]

theorem f64NonPositive_iff (v : F64) : f64NonPositive v = true ↔ val v ≤ 0 := by
  cases hs : f64Sign v with
  | true => simp [f64NonPositive, hs, val_nonpos_of_sign hs]
  | false =>
    have hzero : f64NonPositive v = true ↔ v = 0 := by simp [f64NonPositive, hs]
    rw [hzero, val_eq_scaled hs, div_le_iff₀ (pow_pos two_pos 1074), zero_mul]
    constructor
    · rintro rfl
      exact (Nat.cast_eq_zero.2 (by decide)).le
    · intro h
      exact eq_zero_of_f64Scaled hs (Nat.cast_eq_zero.1 (h.antisymm (Nat.cast_nonneg _)))

theorem pos_of_f64FinitePositive {v : F64} (h : f64FinitePositive v = true) :
    f64Sign v = false ∧ 0 < val v := by
  simp only [f64FinitePositive, Bool.and_eq_true, Bool.not_eq_true', decide_eq_true_eq] at h
  obtain ⟨⟨hs, -⟩, hpos⟩ := h
  rw [val_eq_scaled hs]
  exact ⟨hs, div_pos (Nat.cast_pos.2 hpos) (pow_pos two_pos 1074)⟩

/-! ## The classes (R104) -/

/-- What R104 says of the value of a frequency of the class. -/
def HasClass (p : Params) (v : F64) : FreqClass → Prop
  | .raises .freqNaN => f64Exponent v = 2047 ∧ f64Fraction v ≠ 0
  | .raises .freqPosInf => v = 0x7FF0000000000000
  | .nonPos => v = 0xFFF0000000000000 ∨ isFinite v ∧ val v ≤ 0
  | .raises .freqOutOfModelledRange =>
    isFinite v ∧ 0 < val v ∧ (val v < val p.fModelLo ∨ val p.fModelHi < val v)
  | .pos => isFinite v ∧ val p.fModelLo ≤ val v ∧ val v ≤ val p.fModelHi
  | .raises .illegalCommand | .raises .dacExponentRange | .raises .dacIntRange => False

theorem exists_hasClass (p : Params) (v : F64) : ∃ c, HasClass p v c := by
  by_cases hfin : isFinite v
  · rcases le_or_gt (val v) 0 with hv | hv
    · exact ⟨.nonPos, .inr ⟨hfin, hv⟩⟩
    · by_cases hrange : val p.fModelLo ≤ val v ∧ val v ≤ val p.fModelHi
      · exact ⟨.pos, hfin, hrange⟩
      · rw [not_and_or, not_le, not_le] at hrange
        exact ⟨.raises .freqOutOfModelledRange, hfin, hv, hrange⟩
  · rcases nan_or_infinite hfin with h | h | h
    · exact ⟨.raises .freqNaN, h⟩
    · exact ⟨.raises .freqPosInf, h⟩
    · exact ⟨.nonPos, .inl h⟩

section
variable {p : Params} {v : F64}

/-- A finite frequency is neither a NaN nor +inf. -/
theorem classify_of_finite (h : isFinite v) : classify p v =
    if f64NonPositive v then .nonPos
    else if f64Scaled v < f64Scaled p.fModelLo || f64Scaled v > f64Scaled p.fModelHi then
      .raises .freqOutOfModelledRange
    else .pos := by
  have hexp : f64Exponent v ≠ f64ExponentMax := h.ne
  have hnan : ¬isNaN v = true := by simp [isNaN, hexp]
  have hinf : v ≠ posInfPattern := by
    rintro rfl
    exact hexp (by decide)
  rw [classify, if_neg hnan, if_neg hinf]

/-- The bounds of the modelled range are compared by value. -/
theorem classify_of_finite_pos (hp : admissible p = true) (h : isFinite v) (hv : 0 < val v) :
    classify p v = if val v < val p.fModelLo ∨ val p.fModelHi < val v then
      .raises .freqOutOfModelledRange else .pos := by
  obtain ⟨-, -, -, hlo, hhi⟩ := (admissible_iff p).1 hp
  obtain ⟨hslo, -⟩ := pos_of_f64FinitePositive hlo
  obtain ⟨hshi, -⟩ := pos_of_f64FinitePositive hhi
  have hnonpos : ¬f64NonPositive v = true := by rwa [f64NonPositive_iff, not_le]
  have hs : f64Sign v = false := by
    rw [← Bool.not_eq_true]
    exact fun hs => hv.not_ge (val_nonpos_of_sign hs)
  rw [classify_of_finite h, if_neg hnonpos]
  simp [val_lt_val_iff hs hslo, val_lt_val_iff hshi hs]

theorem classify_of_hasClass (hp : admissible p = true) {c : FreqClass} (h : HasClass p v c) :
    classify p v = c := by
  obtain ⟨-, -, -, hlo, -⟩ := (admissible_iff p).1 hp
  obtain ⟨-, hpos⟩ := pos_of_f64FinitePositive hlo
  match c, h with
  | .raises .freqNaN, ⟨hexp, hfrac⟩ =>
    exact if_pos (by simp [isNaN, hexp, hfrac, f64ExponentMax])
  | .raises .freqPosInf, h =>
    have hv : v = posInfPattern := h
    rw [classify, if_neg (by rw [hv]; decide), if_pos hv]
  | .nonPos, .inl h =>
    rw [h, classify, if_neg (by decide), if_neg (by decide), if_pos (by decide)]
  | .nonPos, .inr ⟨hfin, hv⟩ =>
    rw [classify_of_finite hfin, if_pos ((f64NonPositive_iff v).2 hv)]
  | .raises .freqOutOfModelledRange, ⟨hfin, hv, hrange⟩ =>
    rw [classify_of_finite_pos hp hfin hv, if_pos hrange]
  | .pos, ⟨hfin, hle, hge⟩ =>
    rw [classify_of_finite_pos hp hfin (hpos.trans_le hle),
      if_neg (not_or.2 ⟨hle.not_gt, hge.not_gt⟩)]

/-- Every frequency has one class, the one its value says. -/
theorem classify_eq_iff (hp : admissible p = true) {c : FreqClass} :
    classify p v = c ↔ HasClass p v c := by
  refine ⟨?_, classify_of_hasClass hp⟩
  rintro rfl
  obtain ⟨c, hc⟩ := exists_hasClass p v
  rwa [classify_of_hasClass hp hc]

end

/-- Settles O13: every frequency has the class its value says. -/
theorem classifyByValue : Obligations.ClassifyByValue :=
  fun _ _ hp => ⟨classify_eq_iff hp, classify_eq_iff hp, classify_eq_iff hp, classify_eq_iff hp,
    classify_eq_iff hp⟩

end Sys2Proof.Machine
end

section
/-! PROOFS. The admitted sets are intervals (R101 to R103, R106): the integers a rounding takes in a band, and that
the evaluation functions have their ends. -/

namespace Sys2Proof.Machine

open Sys2Proof.Admitted

/-! ## Rounding the reals of an interval -/

/-- The values of a monotone rounding between two reals are all integers between its values at them. -/
theorem exists_rounding_iff {f : ℝ → ℤ} (hmono : Monotone f) (hint : ∀ k : ℤ, f k = k) {lo hi : ℝ}
    (h : lo ≤ hi) (n : ℤ) : (∃ y, (lo ≤ y ∧ y ≤ hi) ∧ f y = n) ↔ f lo ≤ n ∧ n ≤ f hi := by
  constructor
  · rintro ⟨y, ⟨hlo, hhi⟩, rfl⟩
    exact ⟨hmono hlo, hmono hhi⟩
  · rintro ⟨hlo, hhi⟩
    rcases lt_or_ge (n : ℝ) lo with hn | hn
    · exact ⟨lo, ⟨le_rfl, h⟩, hlo.antisymm (hint n ▸ hmono hn.le)⟩
    · rcases lt_or_ge hi n with hn' | hn'
      · exact ⟨hi, ⟨h, le_rfl⟩, (hint n ▸ hmono hn'.le : f hi ≤ n).antisymm hhi⟩
      · exact ⟨n, ⟨hn, hn'⟩, hint n⟩

theorem floor_intCast_div (a : ℤ) {b : ℤ} (hb : 0 < b) : ⌊(a : ℝ) / b⌋ = a / b := by
  rw [Int.floor_div_cast_of_nonneg hb.le, Int.floor_intCast]

theorem trunc0_of_neg {x : ℝ} (h : x < 0) : trunc0 x = ⌈x⌉ := by
  rw [trunc0, if_neg h.not_ge, Int.floor_neg, neg_neg]

theorem trunc0_of_nonneg {x : ℝ} (h : 0 ≤ x) : trunc0 x = ⌊x⌋ := if_pos h

theorem trunc0_mono : Monotone trunc0 := by
  intro x y hxy
  rcases lt_or_ge x 0 with hx | hx
  · rw [trunc0_of_neg hx]
    rcases lt_or_ge y 0 with hy | hy
    · rw [trunc0_of_neg hy]
      exact Int.ceil_mono hxy
    · rw [trunc0_of_nonneg hy]
      have hceil : ⌈x⌉ ≤ 0 := Int.ceil_le.2 (by exact_mod_cast hx.le)
      exact hceil.trans (Int.floor_nonneg.2 hy)
  · rw [trunc0_of_nonneg hx, trunc0_of_nonneg (hx.trans hxy)]
    exact Int.floor_mono hxy

theorem trunc0_intCast (k : ℤ) : trunc0 k = k := by
  rcases lt_or_ge (k : ℝ) 0 with h | h
  · rw [trunc0_of_neg h, Int.ceil_intCast]
  · rw [trunc0_of_nonneg h, Int.floor_intCast]

theorem trunc0_intCast_div (a : ℤ) {b : ℤ} (hb : 0 < b) : trunc0 ((a : ℝ) / b) = a.tdiv b := by
  have hb' : (0 : ℝ) < b := by exact_mod_cast hb
  rcases lt_or_ge a 0 with ha | ha
  · have hneg : (a : ℝ) / b < 0 := div_neg_of_neg_of_pos (by exact_mod_cast ha) hb'
    have hflip : -((a : ℝ) / b) = ((-a : ℤ) : ℝ) / b := by push_cast; ring
    rw [trunc0, if_neg hneg.not_ge, hflip, floor_intCast_div _ hb,
      ← Int.tdiv_eq_ediv_of_nonneg (by omega), Int.neg_tdiv, neg_neg]
  · rw [trunc0_of_nonneg (div_nonneg (by exact_mod_cast ha) hb'.le), floor_intCast_div _ hb,
      Int.tdiv_eq_ediv_of_nonneg ha]

/-! ## The band of a tolerance (R101, R102) -/

/-- The lower end of the band of relative width `e` about `x`. -/
noncomputable def bandLow (e x : ℝ) : ℝ := x - e * max 1 |x|

/-- The upper end. -/
noncomputable def bandHigh (e x : ℝ) : ℝ := x + e * max 1 |x|

theorem abs_sub_le_band_iff {e x y : ℝ} :
    |y - x| ≤ e * max 1 |x| ↔ bandLow e x ≤ y ∧ y ≤ bandHigh e x := by
  rw [abs_le, neg_le_sub_iff_le_add, sub_le_iff_le_add', bandLow, sub_le_iff_le_add, bandHigh]

theorem bandLow_le_bandHigh {e : ℝ} (he : 0 ≤ e) (x : ℝ) : bandLow e x ≤ bandHigh e x := by
  have : 0 ≤ e * max 1 |x| := by positivity
  unfold bandLow bandHigh
  linarith

theorem bandHigh_eq_neg (e x : ℝ) : bandHigh e x = -bandLow e (-x) := by
  rw [bandHigh, bandLow, abs_neg]
  ring

/-- With a tolerance of at most 1 the band's width grows no faster than its centre moves. -/
theorem bandLow_mono {e : ℝ} (he : 0 ≤ e) (he1 : e ≤ 1) : Monotone (bandLow e) := by
  intro x y hxy
  have habs : |y| ≤ |x| + (y - x) := by
    rw [← abs_of_nonneg (sub_nonneg.2 hxy)]
    simpa using abs_add_le x (y - x)
  have hmax : max 1 |y| ≤ max 1 |x| + (y - x) :=
    max_le (by linarith [le_max_left 1 |x|]) (by linarith [le_max_right 1 |x|])
  have hwidth : e * max 1 |y| ≤ e * max 1 |x| + (y - x) := by
    calc e * max 1 |y| ≤ e * (max 1 |x| + (y - x)) := mul_le_mul_of_nonneg_left hmax he
      _ = e * max 1 |x| + e * (y - x) := mul_add ..
      _ ≤ e * max 1 |x| + (y - x) :=
        add_le_add_right (mul_le_of_le_one_left (sub_nonneg.2 hxy) he1) _
  unfold bandLow
  linarith

theorem bandHigh_mono {e : ℝ} (he : 0 ≤ e) (he1 : e ≤ 1) : Monotone (bandHigh e) := by
  intro x y hxy
  rw [bandHigh_eq_neg, bandHigh_eq_neg]
  exact neg_le_neg (bandLow_mono he he1 (neg_le_neg hxy))

theorem ratio_nonneg (e : Ratio) : 0 ≤ ratio e := div_nonneg (Nat.cast_nonneg _) (Nat.cast_nonneg _)

theorem ratio_le_one {e : Ratio} (h : e.num ≤ e.den) : ratio e ≤ 1 :=
  div_le_one_of_le₀ (Nat.cast_le.2 h) (Nat.cast_nonneg _)

section
variable {e : Ratio} (he : 0 < e.den) (n : ℤ) {d : ℤ} (hd : 0 < d)
include he hd

theorem band_width_div : ratio e * max 1 |(n : ℝ) / d| =
    ((e.num * max d |n| : ℤ) : ℝ) / ((d * e.den : ℤ) : ℝ) := by
  have hd' : (0 : ℝ) < d := by exact_mod_cast hd
  have hden : (e.den : ℝ) ≠ 0 := by exact_mod_cast he.ne'
  have hmax : max 1 |(n : ℝ) / d| = max (d : ℝ) |(n : ℝ)| / d := by
    rw [abs_div, abs_of_pos hd', ← div_self hd'.ne', ← max_div_div_right hd'.le]
  rw [hmax, ratio]
  push_cast
  field_simp

/-- The ends of the band about a quotient, over a common denominator. -/
theorem bandLow_div : bandLow (ratio e) ((n : ℝ) / d) =
    ((n * e.den - e.num * max d |n| : ℤ) : ℝ) / ((d * e.den : ℤ) : ℝ) := by
  have hd' : (d : ℝ) ≠ 0 := by exact_mod_cast hd.ne'
  have hden : (e.den : ℝ) ≠ 0 := by exact_mod_cast he.ne'
  rw [bandLow, band_width_div he n hd, Int.cast_sub, sub_div]
  push_cast
  rw [mul_div_mul_right _ _ hden]

theorem bandHigh_div : bandHigh (ratio e) ((n : ℝ) / d) =
    ((n * e.den + e.num * max d |n| : ℤ) : ℝ) / ((d * e.den : ℤ) : ℝ) := by
  have hd' : (d : ℝ) ≠ 0 := by exact_mod_cast hd.ne'
  have hden : (e.den : ℝ) ≠ 0 := by exact_mod_cast he.ne'
  rw [bandHigh, band_width_div he n hd, Int.cast_add, add_div]
  push_cast
  rw [mul_div_mul_right _ _ hden]

end

/-! ## The admitted octaves (R101, R103) -/

theorem mem_octSet_ref (p : Params) (n : ℤ) : n ∈ octSet p 1039 ↔ n = 0 := by simp [octSet]

theorem mem_octSet_iff (p : Params) {f : ℝ} (hf : f ≠ 1039) (n : ℤ) :
    n ∈ octSet p f ↔ ⌊bandLow (ratio p.epsOct) (octExact f)⌋ ≤ n ∧
      n ≤ ⌊bandHigh (ratio p.epsOct) (octExact f)⌋ := by
  rw [← exists_rounding_iff Int.floor_mono Int.floor_intCast (bandLow_le_bandHigh (ratio_nonneg _) _)]
  simp only [octSet, Set.mem_ofPred_eq, if_neg hf, abs_sub_le_band_iff]

/-- At least one octave is admitted. -/
theorem octSet_nonempty (p : Params) (f : ℝ) : ∃ n, n ∈ octSet p f := by
  by_cases hr : f = 1039
  · exact ⟨0, by rw [hr, mem_octSet_ref]⟩
  · exact ⟨_, (mem_octSet_iff p hr _).2
      ⟨le_rfl, Int.floor_mono (bandLow_le_bandHigh (ratio_nonneg _) _)⟩⟩

theorem octBandLow_eq_floor {e : Ratio} (he : 0 < e.den) (n : ℤ) :
    octBandLow e n = ⌊bandLow (ratio e) ((n : ℝ) / octScale)⌋ := by
  rw [bandLow_div he n octScale_pos,
    floor_intCast_div _ (mul_pos octScale_pos (Int.natCast_pos.2 he)), octBandLow]

theorem octBandHigh_eq_floor {e : Ratio} (he : 0 < e.den) (n : ℤ) :
    octBandHigh e n = ⌊bandHigh (ratio e) ((n : ℝ) / octScale)⌋ := by
  rw [bandHigh_div he n octScale_pos,
    floor_intCast_div _ (mul_pos octScale_pos (Int.natCast_pos.2 he)), octBandHigh]

section
variable {p : Params} {v : F64}

theorem isOctRef_iff (h : f64Sign v = false) : isOctRef v = true ↔ val v = 1039 := by
  rw [val_eq_scaled h, div_eq_iff (pow_pos two_pos 1074).ne', isOctRef, beq_iff_eq,
    ← Nat.cast_inj (R := ℝ), Nat.cast_mul, Nat.cast_pow]
  rfl

theorem octEval_of_isOctRef (h : isOctRef v = true) : octEval p v = 0 := by
  rw [octEval, octLow, octHigh, if_pos h, if_pos h, pick_of_eq rfl]

/-- v(f) lies in the enclosure. -/
theorem octExact_mem_enclosure (h : classify p v = .pos) :
    (octNumerLow v : ℝ) / octScale ≤ octExact (val v) ∧
      octExact (val v) ≤ (octNumerHigh v : ℝ) / octScale := by
  have hscale : (0 : ℝ) < octScale := by exact_mod_cast octScale_pos
  rw [div_le_iff₀ hscale, le_div_iff₀ hscale]
  exact ⟨octNumerLow_le h, le_octNumerHigh h⟩

section
variable (hp : admissible p = true) (h : classify p v = .pos)
include hp h

/-- The ends of the band about v(f), rounded, lie between those the enclosure's ends give. -/
theorem floor_bandLow_mem :
    octBandLow p.epsOct (octNumerLow v) ≤ ⌊bandLow (ratio p.epsOct) (octExact (val v))⌋ ∧
      ⌊bandLow (ratio p.epsOct) (octExact (val v))⌋ ≤ octBandLow p.epsOct (octNumerHigh v) := by
  obtain ⟨⟨hden, hle⟩, -⟩ := (admissible_iff p).1 hp
  obtain ⟨hlo, hhi⟩ := octExact_mem_enclosure h
  have hmono := bandLow_mono (ratio_nonneg p.epsOct) (ratio_le_one hle)
  rw [octBandLow_eq_floor hden, octBandLow_eq_floor hden]
  exact ⟨Int.floor_mono (hmono hlo), Int.floor_mono (hmono hhi)⟩

theorem floor_bandHigh_mem :
    octBandHigh p.epsOct (octNumerLow v) ≤ ⌊bandHigh (ratio p.epsOct) (octExact (val v))⌋ ∧
      ⌊bandHigh (ratio p.epsOct) (octExact (val v))⌋ ≤ octBandHigh p.epsOct (octNumerHigh v) := by
  obtain ⟨⟨hden, hle⟩, -⟩ := (admissible_iff p).1 hp
  obtain ⟨hlo, hhi⟩ := octExact_mem_enclosure h
  have hmono := bandHigh_mono (ratio_nonneg p.epsOct) (ratio_le_one hle)
  rw [octBandHigh_eq_floor hden, octBandHigh_eq_floor hden]
  exact ⟨Int.floor_mono (hmono hlo), Int.floor_mono (hmono hhi)⟩

/-- Every octave between the computed ends is admitted. -/
theorem mem_octSet_of_between {n : ℤ} (hlo : octLow p v ≤ n) (hhi : n ≤ octHigh p v) :
    n ∈ octSet p (val v) := by
  have href := isOctRef_iff (f64Sign_false h)
  by_cases hr : isOctRef v = true
  · rw [octLow, if_pos hr] at hlo
    rw [octHigh, if_pos hr] at hhi
    rw [href.1 hr, mem_octSet_ref]
    exact hhi.antisymm hlo
  · rw [octLow, if_neg hr] at hlo
    rw [octHigh, if_neg hr] at hhi
    rw [mem_octSet_iff p (href.not.1 hr)]
    exact ⟨(floor_bandLow_mem hp h).2.trans hlo, hhi.trans (floor_bandHigh_mem hp h).1⟩

/-- Where the enclosure settles its ends, no other octave is admitted. -/
theorem between_of_mem_octSet (hdec : octDecided p v = true) {n : ℤ} (hn : n ∈ octSet p (val v)) :
    octLow p v ≤ n ∧ n ≤ octHigh p v := by
  have href := isOctRef_iff (f64Sign_false h)
  by_cases hr : isOctRef v = true
  · rw [href.1 hr, mem_octSet_ref] at hn
    rw [octLow, octHigh, if_pos hr, if_pos hr, hn]
    exact ⟨le_rfl, le_rfl⟩
  · obtain ⟨hlo, hhi⟩ := (mem_octSet_iff p (href.not.1 hr) n).1 hn
    simp only [octDecided, hr, Bool.false_or, Bool.and_eq_true, beq_iff_eq] at hdec
    obtain ⟨hdeclo, hdechi⟩ := hdec
    rw [octLow, octHigh, if_neg hr, if_neg hr, ← hdeclo, hdechi]
    exact ⟨(floor_bandLow_mem hp h).1.trans hlo, hhi.trans (floor_bandHigh_mem hp h).2⟩

end

end

/-- Settles O14: a tolerance wider than the enclosure leaves an octave between the computed ends, and each of those is
admitted. -/
theorem octEvalIsAdmitted : Obligations.OctEvalIsAdmitted := by
  intro p a hp hw h
  obtain ⟨⟨hden, -⟩, -⟩ := (admissible_iff p).1 hp
  have hw' : p.epsOct.den ≤ 2 ^ 90 * p.epsOct.num := by
    have hden' : (0 : ℝ) < p.epsOct.den := by exact_mod_cast hden
    rw [ratio, le_div_iff₀ hden', zpow_neg, inv_mul_le_iff₀ (by positivity)] at hw
    exact_mod_cast hw
  obtain ⟨hlo, hhi⟩ := octEval_mem (octLow_le_octHigh h hden hw')
  exact mem_octSet_of_between hp h hlo hhi

/-- Settles O16: the computed ends are those of the admitted interval, which is never empty. -/
theorem admittedOctavesAreTheInterval : Obligations.AdmittedOctavesAreTheInterval := by
  intro p a hp h hdec
  obtain ⟨n, hn⟩ := octSet_nonempty p (val a)
  obtain ⟨hlo, hhi⟩ := between_of_mem_octSet hp h hdec hn
  obtain ⟨hevalLo, hevalHi⟩ := octEval_mem (hlo.trans hhi)
  exact ⟨fun m => ⟨between_of_mem_octSet hp h hdec, fun ⟨h1, h2⟩ => mem_octSet_of_between hp h h1 h2⟩,
    mem_octSet_of_between hp h hevalLo hevalHi⟩

/-! ## Off the band of the integers (R106) -/

/-- Where a band holds no integer, its reals have one floor. -/
theorem floor_eq_of_no_integer {x y w : ℝ} (hy : |y - x| ≤ w) (hw : ∀ n : ℤ, w < |x - n|) :
    ⌊y⌋ = ⌊x⌋ := by
  obtain ⟨hlo, hhi⟩ := abs_le.1 hy
  have hx := Int.floor_le x
  have hx' := Int.lt_floor_add_one x
  have hbelow := hw ⌊x⌋
  have habove := hw (⌊x⌋ + 1)
  push_cast at habove
  rw [abs_of_nonneg (by linarith)] at hbelow
  rw [abs_of_neg (by linarith)] at habove
  exact Int.floor_eq_iff.2 ⟨by linarith, by linarith⟩

/-- Settles O19: an admitted octave is the floor of a real of the band, which holds no integer. -/
theorem octaveOutsideTheBandIsTheFloor : Obligations.OctaveOutsideTheBandIsTheFloor := by
  intro p a hp hw h hfar
  have hmem := octEvalIsAdmitted p a hp hw h
  by_cases hr : val a = 1039
  · rw [hr] at hmem ⊢
    rw [(mem_octSet_ref p _).1 hmem]
    simp [octExact]
  · rw [octSet, Set.mem_ofPred_eq, if_neg hr] at hmem
    obtain ⟨y, hy, hfloor⟩ := hmem
    rw [← hfloor]
    exact floor_eq_of_no_integer hy hfar

/-! ## The admitted DAC values (R102, R103) -/

theorem two_zpow_eq_div (k : ℤ) : (2 : ℝ) ^ k = 2 ^ k.toNat / 2 ^ (-k).toNat := by
  rw [← zpow_natCast, ← zpow_natCast, ← zpow_sub₀ two_ne_zero, Int.toNat_sub_toNat_neg]

section
variable {p : Params} {v : F64} (h : classify p v = .pos) (o : ℤ)
include h

/-- The exact pre-truncation value of R102 is the model's quotient. -/
theorem dacExactValue_eq : dacExactValue (val v) o = (dacNum v o : ℝ) / dacDen v o := by
  have hs : (f64Scaled v : ℝ) ≠ 0 := by exact_mod_cast (f64Scaled_pos h).ne'
  have hexp : (2 : ℝ) ^ (10 + o) * 2 ^ 1074 = 2 ^ dacExponent o := by
    rw [← zpow_natCast (2 : ℝ) 1074, ← zpow_add₀ two_ne_zero]
    rfl
  have hpow : (2 : ℝ) ^ (-dacExponent o).toNat ≠ 0 := pow_ne_zero _ two_ne_zero
  rw [dacExactValue, val_eq_scaled (f64Sign_false h), div_div_eq_mul_div, mul_assoc, hexp,
    two_zpow_eq_div, dacNum, dacDen, Config.dacBias, Config.dacK]
  push_cast
  generalize (2 : ℝ) ^ (-dacExponent o).toNat = t at hpow
  field_simp

theorem dacExact_iff : dacExact v o = true ↔ ∃ k : ℤ, (k : ℝ) = dacExactValue (val v) o := by
  have hd := dacDen_pos h o
  have hd' : (dacDen v o : ℝ) ≠ 0 := by exact_mod_cast hd.ne'
  rw [dacExactValue_eq h, dacExact, beq_iff_eq, ← Int.dvd_iff_emod_eq_zero]
  refine exists_congr fun k => ?_
  rw [eq_div_iff hd', mul_comm, eq_comm]
  exact_mod_cast Iff.rfl

theorem dacLow_of_exact {k : ℤ} (hk : (k : ℝ) = dacExactValue (val v) o) : dacLow p v o = k := by
  rw [dacLow, if_pos ((dacExact_iff h o).2 ⟨k, hk⟩), ← floor_intCast_div _ (dacDen_pos h o),
    ← dacExactValue_eq h, ← hk, Int.floor_intCast]

theorem dacHigh_of_exact {k : ℤ} (hk : (k : ℝ) = dacExactValue (val v) o) : dacHigh p v o = k := by
  rw [← dacLow_of_exact h o hk, dacLow, dacHigh, if_pos ((dacExact_iff h o).2 ⟨k, hk⟩),
    if_pos ((dacExact_iff h o).2 ⟨k, hk⟩)]

theorem dacLow_of_not_exact (he : 0 < p.epsDac.den) (hx : ¬dacExact v o = true) :
    dacLow p v o = trunc0 (bandLow (ratio p.epsDac) (dacExactValue (val v) o)) := by
  have hd := dacDen_pos h o
  rw [dacExactValue_eq h, bandLow_div he _ hd,
    trunc0_intCast_div _ (mul_pos hd (Int.natCast_pos.2 he)), dacLow, if_neg hx, dacBand]

theorem dacHigh_of_not_exact (he : 0 < p.epsDac.den) (hx : ¬dacExact v o = true) :
    dacHigh p v o = trunc0 (bandHigh (ratio p.epsDac) (dacExactValue (val v) o)) := by
  have hd := dacDen_pos h o
  rw [dacExactValue_eq h, bandHigh_div he _ hd,
    trunc0_intCast_div _ (mul_pos hd (Int.natCast_pos.2 he)), dacHigh, if_neg hx, dacBand]

end

theorem mem_dacSet_of_integer (p : Params) {f : ℝ} {o k : ℤ} (hk : (k : ℝ) = dacExactValue f o) (d : ℤ) :
    d ∈ dacSet p f o ↔ d = k := by
  have hno : ¬∀ j : ℤ, (j : ℝ) ≠ dacExactValue f o := fun hj => hj k hk
  rw [dacSet, Set.mem_ofPred_eq, or_iff_left fun hd => hno hd.1, ← hk, Int.cast_inj]

theorem mem_dacSet_of_no_integer (p : Params) {f : ℝ} {o : ℤ} (hno : ¬∃ k : ℤ, (k : ℝ) = dacExactValue f o)
    (d : ℤ) : d ∈ dacSet p f o ↔ trunc0 (bandLow (ratio p.epsDac) (dacExactValue f o)) ≤ d ∧
      d ≤ trunc0 (bandHigh (ratio p.epsDac) (dacExactValue f o)) := by
  rw [dacSet, Set.mem_ofPred_eq, or_iff_right fun hd => hno ⟨d, hd⟩, and_iff_right (not_exists.1 hno),
    ← exists_rounding_iff trunc0_mono trunc0_intCast (bandLow_le_bandHigh (ratio_nonneg _) _)]
  simp only [abs_sub_le_band_iff]

/-- Settles O17: the computed ends are the truncated ends of the band, or the exact value itself. -/
theorem admittedDacValuesAreTheInterval : Obligations.AdmittedDacValuesAreTheInterval := by
  intro p a o d hp h
  obtain ⟨-, ⟨hden, -⟩, -⟩ := (admissible_iff p).1 hp
  by_cases hx : dacExact a o = true
  · obtain ⟨k, hk⟩ := (dacExact_iff h o).1 hx
    rw [mem_dacSet_of_integer p hk, dacLow_of_exact h o hk, dacHigh_of_exact h o hk, and_comm,
      le_antisymm_iff]
  · rw [mem_dacSet_of_no_integer p ((dacExact_iff h o).not.1 hx), dacLow_of_not_exact h o hden hx,
      dacHigh_of_not_exact h o hden hx]

/-- Settles O15: `dacEval` lies between the ends of the admitted interval. -/
theorem dacEvalIsAdmitted : Obligations.DacEvalIsAdmitted :=
  fun p a o hp h _ _ => (admittedDacValuesAreTheInterval p a o _ hp h).2 (dacEval_mem h o)

/-- Settles O18: in the exact cases the two ends of the interval are the exact value. -/
theorem exactCasesHaveOneResult : Obligations.ExactCasesHaveOneResult := by
  refine ⟨fun p a h hval => octEval_of_isOctRef ((isOctRef_iff (f64Sign_false h)).2 hval),
    fun p a o k h hk => ?_⟩
  have hlow := dacLow_of_exact h o hk.symm
  rw [dacEval, pick_of_eq (hlow.trans (dacHigh_of_exact h o hk.symm).symm), hlow]

end Sys2Proof.Machine
end

section
/-! PROOFS. The ranges the spec derives for its own parameters (R105, R108, R113), and ENCODE as OCTAVE, DAC and
PACK one after another (R111). -/

namespace Sys2Proof.Machine

open Sys2Proof.Admitted

/-! ## Decimal logarithms -/

theorem le_logb_ten_div {a b k m : ℕ} (hb : 0 < b) (hm : 0 < m) (h : 10 ^ k * b ^ m ≤ a ^ m) :
    (k : ℝ) / m ≤ Real.logb 10 ((a : ℝ) / b) := by
  have hb' : (0 : ℝ) < b := by exact_mod_cast hb
  have hpow : (10 : ℝ) ^ k ≤ ((a : ℝ) / b) ^ m := by
    rw [div_pow, le_div_iff₀ (pow_pos hb' m)]
    exact_mod_cast h
  have hlog := Real.logb_le_logb_of_le (by norm_num : (1 : ℝ) < 10) (by positivity) hpow
  rw [Real.logb_pow, Real.logb_pow, Real.logb_self_eq_one (by norm_num), mul_one] at hlog
  rwa [div_le_iff₀' (by exact_mod_cast hm)]

theorem logb_ten_div_le {a b k m : ℕ} (ha : 0 < a) (hb : 0 < b) (hm : 0 < m)
    (h : a ^ m ≤ 10 ^ k * b ^ m) : Real.logb 10 ((a : ℝ) / b) ≤ (k : ℝ) / m := by
  have ha' : (0 : ℝ) < a := by exact_mod_cast ha
  have hb' : (0 : ℝ) < b := by exact_mod_cast hb
  have hpow : ((a : ℝ) / b) ^ m ≤ 10 ^ k := by
    rw [div_pow, div_le_iff₀ (pow_pos hb' m)]
    exact_mod_cast h
  have hlog := Real.logb_le_logb_of_le (by norm_num : (1 : ℝ) < 10) (by positivity) hpow
  rw [Real.logb_pow, Real.logb_pow, Real.logb_self_eq_one (by norm_num), mul_one] at hlog
  rwa [le_div_iff₀' (by exact_mod_cast hm)]

theorem logb_ten_two_ge : 0.301029 ≤ Real.logb 10 2 := by
  have h := le_logb_ten_div (a := 2) (b := 1) (k := 643) (m := 2136) (by decide) (by decide)
    (by decide +kernel)
  norm_num at h ⊢
  linarith

theorem logb_ten_two_le : Real.logb 10 2 ≤ 0.30103 := by
  have h := logb_ten_div_le (a := 2) (b := 1) (k := 30103) (m := 100000) (by decide) (by decide)
    (by decide) (by decide +kernel)
  norm_num at h ⊢
  linarith

theorem logb_ten_octRef_mem : 3 ≤ Real.logb 10 1039 ∧ Real.logb 10 1039 ≤ 3.02 := by
  have hlo := le_logb_ten_div (a := 1039) (b := 1) (k := 3) (m := 1) (by decide) (by decide)
    (by decide)
  have hhi := logb_ten_div_le (a := 1039) (b := 1) (k := 151) (m := 50) (by decide) (by decide)
    (by decide) (by decide +kernel)
  norm_num at hlo hhi ⊢
  exact ⟨hlo, hhi⟩

theorem logb_ten_two_zpow (k : ℤ) : Real.logb 10 ((2 : ℝ) ^ k) = k * Real.logb 10 2 := by
  rw [← Real.rpow_intCast, Real.logb_rpow_eq_mul_logb_of_pos two_pos]

theorem log_ten_mem : 1 ≤ Real.log 10 ∧ Real.log 10 ≤ 3 := by
  have he := Real.exp_one_gt_d9
  have he' := Real.exp_one_lt_d9
  have hcube : Real.exp 3 = Real.exp 1 ^ 3 := by rw [← Real.exp_nat_mul]; norm_num
  constructor
  · rw [Real.le_log_iff_exp_le (by norm_num)]
    linarith
  · rw [Real.log_le_iff_le_exp (by norm_num), hcube]
    calc (10 : ℝ) ≤ 2.7 ^ 3 := by norm_num
      _ ≤ Real.exp 1 ^ 3 := by gcongr; linarith

/-! ## The logarithm of a modelled frequency (R104, R113) -/

theorem logb_div_octRef {f : ℝ} (hf : 0 < f) :
    Real.logb 10 (f / 1039) = Real.logb 10 f - Real.logb 10 1039 :=
  Real.logb_div hf.ne' (by norm_num)

theorem logb_modelled {a : F64} (h : classify .spec a = .pos) :
    -304.05 ≤ Real.logb 10 (val a / 1039) ∧ Real.logb 10 (val a / 1039) ≤ 298.03 := by
  obtain ⟨-, hlo, hhi⟩ := (classify_eq_iff params_spec_admissible).1 h
  have hf := val_pos h
  rw [val_fModelLo_spec] at hlo
  rw [val_fModelHi_spec] at hhi
  have hlo' := Real.logb_le_logb_of_le (by norm_num : (1 : ℝ) < 10) (by positivity) hlo
  have hhi' := Real.logb_le_logb_of_le (by norm_num : (1 : ℝ) < 10) hf hhi
  rw [logb_ten_two_zpow] at hlo' hhi'
  obtain ⟨href, href'⟩ := logb_ten_octRef_mem
  have htwo := logb_ten_two_le
  rw [logb_div_octRef hf]
  push_cast at hlo' hhi'
  exact ⟨by linarith, by linarith⟩

theorem logb_host {f : ℝ} (hlo : 1000 ≤ f) (hhi : f ≤ 200000) :
    -0.02 ≤ Real.logb 10 (f / 1039) ∧ Real.logb 10 (f / 1039) ≤ 2.30103 := by
  have hf : 0 < f := by linarith
  have hlo' := Real.logb_le_logb_of_le (by norm_num : (1 : ℝ) < 10) (by norm_num) hlo
  have hhi' := Real.logb_le_logb_of_le (by norm_num : (1 : ℝ) < 10) hf hhi
  have h1000 : Real.logb 10 1000 = 3 := by
    rw [show (1000 : ℝ) = 10 ^ 3 by norm_num, Real.logb_pow, Real.logb_self_eq_one (by norm_num)]
    norm_num
  have h200000 : Real.logb 10 200000 = 5 + Real.logb 10 2 := by
    rw [show (200000 : ℝ) = 10 ^ 5 * 2 by norm_num, Real.logb_mul (by norm_num) (by norm_num),
      Real.logb_pow, Real.logb_self_eq_one (by norm_num)]
    norm_num
  obtain ⟨href, href'⟩ := logb_ten_octRef_mem
  have htwo := logb_ten_two_le
  rw [logb_div_octRef hf]
  exact ⟨by linarith, by linarith⟩

/-! ## The octave beside the exact value (R101, R105) -/

theorem ratio_epsOct_spec : ratio Params.spec.epsOct = (2 : ℝ) ^ (-40 : ℤ) := ratio_one_two_pow 40

theorem ratio_epsDac_spec : ratio Params.spec.epsDac = (2 : ℝ) ^ (-40 : ℤ) := ratio_one_two_pow 40

theorem octExact_eq_mul (f : ℝ) : octExact f = 3.322 * Real.logb 10 (f / 1039) := by
  rw [octExact]
  norm_num

section
variable {a : F64} (h : classify .spec a = .pos)
include h

/-- The octave is the floor of a real of the band; at 1039 Hz of the exact value, 0. -/
theorem exists_floor_eq_octEval : ∃ y : ℝ,
    |y - octExact (val a)| ≤ (2 : ℝ) ^ (-40 : ℤ) * max 1 |octExact (val a)| ∧
      ⌊y⌋ = octEval .spec a := by
  have hw : (2 : ℝ) ^ (-90 : ℤ) ≤ ratio Params.spec.epsOct := by
    rw [ratio_epsOct_spec]
    exact zpow_le_zpow_right₀ one_le_two (by norm_num)
  have hmem := octEvalIsAdmitted .spec a params_spec_admissible hw h
  by_cases hr : val a = 1039
  · rw [hr] at hmem ⊢
    refine ⟨octExact 1039, by simp, ?_⟩
    rw [(mem_octSet_ref .spec _).1 hmem]
    simp [octExact]
  · rw [octSet, Set.mem_ofPred_eq, if_neg hr, ratio_epsOct_spec] at hmem
    exact hmem

theorem octEval_near_octExact : octEval .spec a ≤ octExact (val a) + 1e-9 ∧
    octExact (val a) - 1e-9 < octEval .spec a + 1 := by
  obtain ⟨y, hy, hfloor⟩ := exists_floor_eq_octEval h
  obtain ⟨hlo, hhi⟩ := logb_modelled h
  have hv : |octExact (val a)| ≤ 1011 := by
    rw [octExact_eq_mul, abs_le]
    exact ⟨by linarith, by linarith⟩
  have hwidth : (2 : ℝ) ^ (-40 : ℤ) * max 1 |octExact (val a)| ≤ 1e-9 := by
    calc (2 : ℝ) ^ (-40 : ℤ) * max 1 |octExact (val a)| ≤ 2 ^ (-40 : ℤ) * 1011 := by
          gcongr
          exact max_le (by norm_num) hv
      _ ≤ 1e-9 := by norm_num
  obtain ⟨hy1, hy2⟩ := abs_le.1 (hy.trans hwidth)
  rw [← hfloor]
  exact ⟨by linarith [Int.floor_le y], by linarith [Int.lt_floor_add_one y]⟩

/-- Bounds of v(f) that stay clear of the integers bound the octave. -/
theorem octEval_mem_of_octExact {m n : ℤ} (hm : m + 1e-9 ≤ octExact (val a))
    (hn : octExact (val a) + 1e-9 < n + 1) : m ≤ octEval .spec a ∧ octEval .spec a ≤ n := by
  obtain ⟨hle, hlt⟩ := octEval_near_octExact h
  have hlo : (m : ℝ) < octEval .spec a + 1 := by linarith
  have hhi : (octEval .spec a : ℝ) < n + 1 := by linarith
  exact ⟨Int.lt_add_one_iff.1 (by exact_mod_cast hlo), Int.lt_add_one_iff.1 (by exact_mod_cast hhi)⟩

end

/-- Settles O20: from the logarithms of the ends of the modelled range. -/
theorem octaveRange : Obligations.OctaveRange := by
  intro a h
  obtain ⟨hlo, hhi⟩ := logb_modelled h
  have hv := octExact_eq_mul (val a)
  exact octEval_mem_of_octExact h (by push_cast; linarith) (by push_cast; linarith)

/-! ## The power of two of the octave beside the frequency (R108) -/

theorem two_zpow_le_mul {k : ℤ} {c r : ℝ} (hc : 0 < c) (hr : 0 < r)
    (h : k * Real.logb 10 2 ≤ Real.logb 10 c + Real.logb 10 r) : (2 : ℝ) ^ k ≤ c * r := by
  rw [← logb_ten_two_zpow, ← Real.logb_mul hc.ne' hr.ne'] at h
  exact (Real.logb_le_logb (by norm_num) (by positivity) (by positivity)).1 h

theorem le_mul_two_zpow {k : ℤ} {c r : ℝ} (hc : 0 < c) (hr : 0 < r)
    (h : Real.logb 10 r ≤ Real.logb 10 c + k * Real.logb 10 2) : r ≤ c * (2 : ℝ) ^ k := by
  rw [← logb_ten_two_zpow, ← Real.logb_mul hc.ne' (by positivity)] at h
  exact (Real.logb_le_logb (by norm_num) hr (by positivity)).1 h

/-- `OCT_K` = 3.322 is above the reciprocal of log10 of 2, by less than 2.17e-5 of it. -/
theorem octK_drift_mem :
    0 ≤ 3.322 * Real.logb 10 2 - 1 ∧ 3.322 * Real.logb 10 2 - 1 ≤ 2.17e-5 := by
  have hge := logb_ten_two_ge
  have hle := logb_ten_two_le
  exact ⟨by linarith, by linarith⟩

section
variable {a : F64} (h : classify .spec a = .pos) {c : ℝ} (hc : 0 < c)
include h hc

/-- Up to a frequency `1039 * 10 ^ L` the octave's power of two exceeds the frequency over 1039 Hz by a factor of at
most about `10 ^ (2.17e-5 * L)`. -/
theorem two_zpow_octEval_le {L : ℝ} (hL0 : 0 ≤ L) (hL : Real.logb 10 (val a / 1039) ≤ L)
    (hmargin : 2.17e-5 * L + 1e-9 ≤ Real.logb 10 c) :
    (2 : ℝ) ^ octEval .spec a ≤ c * (val a / 1039) := by
  obtain ⟨hle, -⟩ := octEval_near_octExact h
  rw [octExact_eq_mul] at hle
  refine two_zpow_le_mul hc (div_pos (val_pos h) (by norm_num)) ?_
  obtain ⟨hk0, hk⟩ := octK_drift_mem
  have hdrift : (3.322 * Real.logb 10 2 - 1) * Real.logb 10 (val a / 1039) ≤ 2.17e-5 * L :=
    (mul_le_mul_of_nonneg_left hL hk0).trans (mul_le_mul_of_nonneg_right hk hL0)
  have hmul := mul_le_mul_of_nonneg_right hle (by linarith : 0 ≤ Real.logb 10 2)
  linarith

/-- Down to `1039 * 10 ^ -L` the power of two of the octave's upper end falls short by at most that factor. -/
theorem le_two_zpow_octEval_succ {L : ℝ} (hL0 : 0 ≤ L) (hL : -L ≤ Real.logb 10 (val a / 1039))
    (hmargin : 2.17e-5 * L + 1e-9 ≤ Real.logb 10 c) :
    val a / 1039 ≤ c * (2 : ℝ) ^ (octEval .spec a + 1) := by
  obtain ⟨-, hlt⟩ := octEval_near_octExact h
  rw [octExact_eq_mul] at hlt
  refine le_mul_two_zpow hc (div_pos (val_pos h) (by norm_num)) ?_
  obtain ⟨hk0, hk⟩ := octK_drift_mem
  have hdrift : -(2.17e-5 * L) ≤ (3.322 * Real.logb 10 2 - 1) * Real.logb 10 (val a / 1039) := by
    have h1 := mul_le_mul_of_nonneg_left hL hk0
    have h2 := mul_le_mul_of_nonneg_right hk hL0
    linarith
  have hmul := mul_le_mul_of_nonneg_right hlt.le (by linarith : 0 ≤ Real.logb 10 2)
  push_cast
  linarith

end

/-! ## The DAC value beside the exact value (R102, R107) -/

theorem lt_trunc0 {n : ℤ} {y : ℝ} (hn : n < 0) (h : n < y) : n < trunc0 y := by
  rcases lt_or_ge y 0 with hy | hy
  · rw [trunc0_of_neg hy]
    exact Int.lt_ceil.2 h
  · rw [trunc0_of_nonneg hy]
    exact hn.trans_le (Int.floor_nonneg.2 hy)

theorem trunc0_lt {n : ℤ} {y : ℝ} (hn : 0 < n) (h : y < n) : trunc0 y < n := by
  rcases lt_or_ge y 0 with hy | hy
  · rw [trunc0_of_neg hy]
    exact (Int.ceil_le.2 (by exact_mod_cast hy.le) : ⌈y⌉ ≤ 0).trans_lt hn
  · rw [trunc0_of_nonneg hy]
    exact Int.floor_lt.2 h

/-- With 2078 twice 1039, the exact value compares the octave's power of two with the frequency over 1039 Hz. -/
theorem dacExactValue_eq_sub (f : ℝ) (o : ℤ) :
    dacExactValue f o = 2048 - 2048 * (2 ^ o / (f / 1039)) := by
  rw [dacExactValue, zpow_add₀ two_ne_zero, div_div_eq_mul_div]
  norm_num
  ring

theorem le_dacExactValue {f c : ℝ} {o : ℤ} (hf : 0 < f) (h : 2 ^ o ≤ c * (f / 1039)) :
    2048 - 2048 * c ≤ dacExactValue f o := by
  have hquot : 2 ^ o / (f / 1039) ≤ c := (div_le_iff₀ (by positivity)).2 h
  rw [dacExactValue_eq_sub]
  linarith

theorem dacExactValue_le {f c : ℝ} {o : ℤ} (hf : 0 < f) (hc : 0 < c)
    (h : f / 1039 ≤ c * 2 ^ (o + 1)) : dacExactValue f o ≤ 2048 - 1024 / c := by
  have hquot : 1 / (2 * c) ≤ 2 ^ o / (f / 1039) := by
    rw [zpow_add_one₀ two_ne_zero] at h
    rw [div_le_div_iff₀ (by positivity) (by positivity)]
    linarith
  have hhalf : 1024 / c = 2048 * (1 / (2 * c)) := by field_simp; norm_num
  rw [dacExactValue_eq_sub, hhalf]
  linarith

theorem dacEval_mem_dacSet {a : F64} (h : classify .spec a = .pos) (o : ℤ) :
    dacEval .spec a o ∈ dacSet .spec (val a) o :=
  (admittedDacValuesAreTheInterval .spec a o _ params_spec_admissible h).2 (dacEval_mem h o)

/-- The DAC value truncates a real of the band. -/
theorem exists_trunc0_eq_dacEval {a : F64} (h : classify .spec a = .pos) (o : ℤ) : ∃ y : ℝ,
    |y - dacExactValue (val a) o| ≤ (2 : ℝ) ^ (-40 : ℤ) * max 1 |dacExactValue (val a) o| ∧
      trunc0 y = dacEval .spec a o := by
  rcases dacEval_mem_dacSet h o with hint | ⟨-, y, hy, htrunc⟩
  · refine ⟨_, ?_, trunc0_intCast _⟩
    rw [hint, sub_self, abs_zero]
    positivity
  · rw [ratio_epsDac_spec] at hy
    exact ⟨y, hy, htrunc⟩

/-- Bounds of x(f, o) that stay clear of two integers, one below 0 and one above, bound the DAC value. -/
theorem dacEval_mem_of_dacExactValue {a : F64} (h : classify .spec a = .pos) {o m n : ℤ}
    (hm : m < 0) (hn : 0 < n) (hm' : -2000 ≤ m) (hn' : n ≤ 2000)
    (hlo : m + 1e-8 ≤ dacExactValue (val a) o) (hhi : dacExactValue (val a) o + 1e-8 ≤ n) :
    m < dacEval .spec a o ∧ dacEval .spec a o < n := by
  obtain ⟨y, hy, htrunc⟩ := exists_trunc0_eq_dacEval h o
  have hm'' : (-2000 : ℝ) ≤ m := by exact_mod_cast hm'
  have hn'' : (n : ℝ) ≤ 2000 := by exact_mod_cast hn'
  have hx : |dacExactValue (val a) o| ≤ 2000 := abs_le.2 ⟨by linarith, by linarith⟩
  have hwidth : (2 : ℝ) ^ (-40 : ℤ) * max 1 |dacExactValue (val a) o| < 1e-8 := by
    calc (2 : ℝ) ^ (-40 : ℤ) * max 1 |dacExactValue (val a) o| ≤ 2 ^ (-40 : ℤ) * 2000 := by
          gcongr
          exact max_le (by norm_num) hx
      _ < 1e-8 := by norm_num
  obtain ⟨hy1, hy2⟩ := abs_lt.1 (hy.trans_lt hwidth)
  rw [← htrunc]
  exact ⟨lt_trunc0 hm (by linarith), trunc0_lt hn (by linarith)⟩

/-! ## ENCODE's DAC value over the modelled range (R108, R111) -/

theorem logb_ten_1_0151_ge : 0.0065 ≤ Real.logb 10 1.0151 := by
  have h := le_logb_ten_div (a := 10151) (b := 10000) (k := 13) (m := 2000) (by decide) (by decide)
    (by decide +kernel)
  norm_num at h ⊢
  linarith

theorem logb_ten_1_0155_ge : 0.0066 ≤ Real.logb 10 1.0155 := by
  have h := le_logb_ten_div (a := 10155) (b := 10000) (k := 33) (m := 5000) (by decide) (by decide)
    (by decide +kernel)
  norm_num at h ⊢
  linarith

theorem logb_ten_1_0004_ge : 0.0001 ≤ Real.logb 10 1.0004 := by
  have h := le_logb_ten_div (a := 10004) (b := 10000) (k := 1) (m := 10000) (by decide) (by decide)
    (by decide +kernel)
  norm_num at h ⊢
  linarith

theorem logb_ten_below_one_ge : -2e-6 ≤ Real.logb 10 0.999999 := by
  have hten := log_ten_mem.1
  have hlog := Real.one_sub_inv_le_log_of_pos (by norm_num : (0 : ℝ) < 0.999999)
  rw [Real.logb, le_div_iff₀ (by linarith)]
  norm_num at hlog ⊢
  linarith

/-- Settles O21: over the modelled range the octave's power of two leaves the frequency's by less than 1.6 in 100. -/
theorem encodeDacRange : Obligations.EncodeDacRange := by
  intro a h
  obtain ⟨hlo, hhi⟩ := logb_modelled h
  have hf := val_pos h
  have hbelow := le_dacExactValue hf (two_zpow_octEval_le h (by norm_num : (0 : ℝ) < 1.0151)
    (by norm_num) hhi (le_trans (by norm_num) logb_ten_1_0151_ge))
  have habove := dacExactValue_le hf (by norm_num) (le_two_zpow_octEval_succ h
    (by norm_num : (0 : ℝ) < 1.0155) (by norm_num) hlo (le_trans (by norm_num) logb_ten_1_0155_ge))
  have hmem := dacEval_mem_of_dacExactValue h (o := octEval .spec a) (m := -31) (n := 1040)
    (by norm_num) (by norm_num) (by norm_num) (by norm_num)
    (le_trans (by norm_num) hbelow) (by norm_num at habove ⊢; linarith)
  omega

/-! ## The host's frequency range (R113) -/

section
variable {a : F64} (h : classify .spec a = .pos) (hlo : 1000 ≤ val a) (hhi : val a ≤ 200000)
include h hlo hhi

theorem octEval_host_range : -1 ≤ octEval .spec a ∧ octEval .spec a ≤ 7 := by
  obtain ⟨hlog, hlog'⟩ := logb_host hlo hhi
  have hv := octExact_eq_mul (val a)
  exact octEval_mem_of_octExact h (by push_cast; linarith) (by push_cast; linarith)

theorem dacExactValue_host_range : -0.82 ≤ dacExactValue (val a) (octEval .spec a) ∧
    dacExactValue (val a) (octEval .spec a) ≤ 1024.5 := by
  obtain ⟨hlog, hlog'⟩ := logb_host hlo hhi
  have hf := val_pos h
  have hbelow := le_dacExactValue hf (two_zpow_octEval_le h (by norm_num : (0 : ℝ) < 1.0004)
    (by norm_num) hlog' (le_trans (by norm_num) logb_ten_1_0004_ge))
  have habove := dacExactValue_le hf (by norm_num) (le_two_zpow_octEval_succ h
    (by norm_num : (0 : ℝ) < 1.0004) (by norm_num) hlog (le_trans (by norm_num) logb_ten_1_0004_ge))
  norm_num at hbelow habove ⊢
  exact ⟨by linarith, by linarith⟩

end

/-- From the octave 0 on the octave's upper end lies clear above the frequency: its power of two drifts from the
frequency's by more than the band is wide. -/
theorem dacExactValue_lt_of_octEval_nonneg {a : F64} (h : classify .spec a = .pos)
    (ho : 0 ≤ octEval .spec a) :
    dacExactValue (val a) (octEval .spec a) + 1e-8 ≤ 1024 := by
  have hf := val_pos h
  obtain ⟨-, hlt⟩ := octEval_near_octExact h
  rw [octExact_eq_mul] at hlt
  have htwo := logb_ten_two_ge
  have hc := logb_ten_below_one_ge
  have ho' : (0 : ℝ) ≤ octEval .spec a := by exact_mod_cast ho
  have hpow : val a / 1039 ≤ 0.999999 * (2 : ℝ) ^ (octEval .spec a + 1) := by
    refine le_mul_two_zpow (by norm_num) (by positivity) ?_
    push_cast
    have hmul : ((octEval .spec a : ℝ) + 1) * 0.301029 ≤
        ((octEval .spec a : ℝ) + 1) * Real.logb 10 2 := by gcongr
    rcases le_or_gt (Real.logb 10 (val a / 1039)) 0.15 with hsmall | hbig
    · linarith
    · linarith
  have hx := dacExactValue_le hf (by norm_num) hpow
  norm_num at hx ⊢
  linarith

/-- A negative octave leaves v(f) above 0 by at most the band's width at 0. -/
theorem octExact_le_of_octEval_neg {a : F64} (h : classify .spec a = .pos) (ho : octEval .spec a < 0) :
    octExact (val a) ≤ (2 : ℝ) ^ (-40 : ℤ) := by
  obtain ⟨y, hy, hfloor⟩ := exists_floor_eq_octEval h
  have hneg : y < 0 := Int.floor_lt_zero.1 (hfloor ▸ ho)
  have hband := (abs_le.1 hy).1
  by_contra hbig
  have hpos : 0 ≤ octExact (val a) := le_trans (by positivity) (not_le.1 hbig).le
  rw [abs_of_nonneg hpos] at hband
  rcases le_total (octExact (val a)) 1 with hv | hv
  · rw [max_eq_left hv] at hband
    linarith
  · rw [max_eq_right hv] at hband
    norm_num at hband
    linarith

/-- Above 1039 Hz, the octave is -1 only where the exact DAC value lies in the band of 1024. -/
theorem dacExactValue_near_of_octEval_neg {a : F64} (h : classify .spec a = .pos)
    (ho : octEval .spec a < 0) (hval : 1039 < val a) :
    1024 < dacExactValue (val a) (-1) ∧
      dacExactValue (val a) (-1) - 1024 ≤ (2 : ℝ) ^ (-40 : ℤ) * dacExactValue (val a) (-1) := by
  have hr : 1 < val a / 1039 := (one_lt_div (by norm_num)).2 hval
  obtain ⟨hten, hten'⟩ := log_ten_mem
  have hv := octExact_le_of_octEval_neg h ho
  have hlog := Real.one_sub_inv_le_log_of_pos (zero_lt_one.trans hr)
  have hx : dacExactValue (val a) (-1) = 2048 - 1024 * (val a / 1039)⁻¹ := by
    rw [dacExactValue_eq_sub, zpow_neg_one]
    ring
  rw [octExact_eq_mul, Real.logb, ← mul_div_assoc, div_le_iff₀ (by linarith)] at hv
  have hinv := inv_lt_one_of_one_lt₀ hr
  rw [hx]
  generalize (val a / 1039)⁻¹ = t at hlog hinv ⊢
  norm_num at hv ⊢
  exact ⟨by linarith, by linarith⟩

/-- Off the band of 1024, x(f, -1) of a negative octave lies below it. -/
theorem dacExactValue_lt_of_octEval_neg {a : F64} (h : classify .spec a = .pos)
    (ho : octEval .spec a < 0)
    (hfar : (2 : ℝ) ^ (-40 : ℤ) * max 1 |dacExactValue (val a) (-1)| <
      |dacExactValue (val a) (-1) - 1024|) : dacExactValue (val a) (-1) < 1024 := by
  have hf := val_pos h
  rcases lt_trichotomy (val a) 1039 with hval | hval | hval
  · rw [dacExactValue_eq_sub, zpow_neg_one]
    have hr : val a / 1039 < 1 := (div_lt_one (by norm_num)).2 hval
    have hquot : 2⁻¹ < 2⁻¹ / (val a / 1039) := (lt_div_iff₀ (by positivity)).2 (by linarith)
    linarith
  · rw [octEval_of_isOctRef ((isOctRef_iff (f64Sign_false h)).2 hval)] at ho
    exact absurd ho (lt_irrefl 0)
  · obtain ⟨hgt, hnear⟩ := dacExactValue_near_of_octEval_neg h ho hval
    rw [abs_of_pos (by linarith), max_eq_right (by linarith), abs_of_pos (by linarith)] at hfar
    exact absurd hnear hfar.not_ge

/-- The DAC value lies below an integer the band lies below. -/
theorem dacEval_lt_of_band {a : F64} (h : classify .spec a = .pos) {o n : ℤ} (hn : 0 < n)
    (hx : dacExactValue (val a) o + (2 : ℝ) ^ (-40 : ℤ) * max 1 |dacExactValue (val a) o| < n) :
    dacEval .spec a o < n := by
  obtain ⟨y, hy, htrunc⟩ := exists_trunc0_eq_dacEval h o
  rw [← htrunc]
  exact trunc0_lt hn (by linarith [(abs_le.1 hy).2])

/-- Settles O22: the DAC value reaches 1024 only from the octave -1, in the band of 1024. -/
theorem resultsInTheHostRange : Obligations.ResultsInTheHostRange := by
  intro a h hlo hhi
  have hoct := octEval_host_range h hlo hhi
  obtain ⟨hx, hx'⟩ := dacExactValue_host_range h hlo hhi
  have hdac := dacEval_mem_of_dacExactValue h (o := octEval .spec a) (m := -1) (n := 1025)
    (by norm_num) (by norm_num) (by norm_num) (by norm_num) (by push_cast; linarith)
    (by push_cast; linarith)
  refine ⟨hoct, by omega, fun hfar => ?_⟩
  rcases le_or_gt 0 (octEval .spec a) with ho | ho
  · have hclear := dacEval_mem_of_dacExactValue h (o := octEval .spec a) (m := -1) (n := 1024)
      (by norm_num) (by norm_num) (by norm_num) (by norm_num) (by push_cast; linarith)
      (by exact_mod_cast dacExactValue_lt_of_octEval_nonneg h ho)
    omega
  · have hone : octEval .spec a = -1 := by omega
    have hbelow := dacExactValue_lt_of_octEval_neg h ho hfar
    rw [abs_of_neg (sub_neg.2 hbelow)] at hfar
    have hlt : dacEval .spec a (-1) < 1024 :=
      dacEval_lt_of_band h (by norm_num) (by push_cast; linarith)
    rw [hone]
    omega

/-! ## ENCODE as three commands (R111) -/

section
variable {a : F64} (h : classify .spec a = .pos)
include h

theorem sint_octEval : sint (bitsOf 32 (octEval .spec a)) = octEval .spec a := by
  obtain ⟨hlo, hhi⟩ := octaveRange a h
  exact BitVec.toInt_ofInt_eq_self (by decide) (by omega) (by omega)

theorem sint_dacEval_octEval :
    sint (bitsOf 32 (dacEval .spec a (octEval .spec a))) = dacEval .spec a (octEval .spec a) := by
  obtain ⟨hlo, hhi⟩ := encodeDacRange a h
  exact BitVec.toInt_ofInt_eq_self (by decide) (by omega) (by omega)

/-- DAC does not fault on the octave of its frequency. -/
theorem dacResult_octEval : dacResult .spec a (octEval .spec a) =
    .value (bitsOf 32 (dacEval .spec a (octEval .spec a))) := by
  obtain ⟨hlo, hhi⟩ := octaveRange a h
  obtain ⟨hdlo, hdhi⟩ := encodeDacRange a h
  have hmin : intMin .spec = -2 ^ 31 := rfl
  have hmax : intMax .spec = 2 ^ 31 - 1 := rfl
  have hemin : Params.spec.eMin = -1010 := rfl
  have hemax : Params.spec.eMax = 1010 := rfl
  exact dacResult_of_fits h (by omega) (by omega) (by omega) (by omega)

end

/-- What the three commands give one another: for a frequency that raises no fault, OCTAVE's value, DAC's value on
it, and ENCODE's, which is PACK's on both. -/
theorem encodeResult_eq_packResult {a : F64} (hno : ∀ k, classify .spec a ≠ .raises k) :
    ∃ o d : Word32, octaveResult .spec a = .value o ∧ dacResult .spec a (sint o) = .value d ∧
      encodeResult .spec a = packResult (sint o) (sint d) (sint (0 : Word32)) := by
  cases h : classify .spec a with
  | raises k => exact absurd h (hno k)
  | nonPos => exact ⟨0, 0, byClass_of_nonPos h, byClass_of_nonPos h, byClass_of_nonPos h⟩
  | pos =>
    refine ⟨_, bitsOf 32 (dacEval .spec a (octEval .spec a)), byClass_of_pos h, ?_, ?_⟩
    · rw [sint_octEval h]
      exact dacResult_octEval h
    · rw [sint_octEval h, sint_dacEval_octEval h]
      exact byClass_of_pos h

theorem exec_octave_of_value {s : State} {o : Word32} (hc : s.canAccept = true)
    (h : octaveResult s.params s.f = .value o) : exec .octave s = .next (s.take.writeRes o) := by
  rw [exec_octave_of_canAccept hc, h]
  rfl

theorem exec_dac_of_value {s : State} {d : Word32} (hc : s.canAccept = true)
    (h : dacResult s.params s.f (sint s.x) = .value d) : exec .dac s = .next (s.take.writeRes d) := by
  rw [exec_dac_of_canAccept hc, h]
  rfl

/-- Settles O23: each command is accepted, and finishes with the value it gives the next. -/
theorem encodeEqualsOctaveDacPack : Obligations.EncodeEqualsOctaveDacPack := by
  intro s hc hparams hno
  rw [hparams] at hno
  obtain ⟨o, d, hoct, hdac, hencode⟩ := encodeResult_eq_packResult hno
  rw [← hparams] at hoct hdac hencode
  refine ⟨_, _, _, _, o, d, exec_octave_of_value hc hoct, rfl,
    exec_dac_of_value (s := { s.take.writeRes o with x := o }) hc hdac, rfl,
    exec_pack_of_canAccept (s := { ({ s.take.writeRes o with x := o } : State).take.writeRes d with
      x := o, y := d, z := 0 }) hc,
    exec_encode_of_canAccept hc, ?_⟩
  rw [hencode]
  rfl

end Sys2Proof.Machine
end

section
/-! PROOFS. A SEND's acceptance, its least duration, and its waits under every schedule (41_transmitter.md): R140,
R142, R144, R147, R152, R153. -/

namespace Sys2Proof.Machine

/-! ## Acceptance (R140) -/

/-- An accepted SEND latches its word and opens the sequence (R140). -/
theorem exec_send_of_canAccept {s : State} (hc : s.canAccept = true) :
    exec .send s = .next s.take.beginSend :=
  accept_of_canAccept hc State.beginSend

/-- Settles O29: the word latched is `X[15:0]`. -/
theorem sendLatchesTheWord : Obligations.SendLatchesTheWord := by
  refine fun s hc => ⟨s.x.extractLsb' 0 16, ?_, exec_send_of_canAccept hc⟩
  simp [BitVec.extractLsb'_toNat]

/-! ## The least duration (R153) -/

/-- The minimum of the wait of a phase (R144, R145, R147). -/
def Phase.minimum (p : Phase) : Nat := if p = .finalWait then Config.tFinal else Config.tSettle

theorem Phase.ne_idle_of_waits {p : Phase} (h : p.waits = true) : p ≠ .idle := by
  rintro rfl; cases h

theorem State.txAction_of_waits {s : State} (h : s.txPhase.waits = true) :
    s.txAction = .wait s.txPhase.minimum := by
  unfold State.txAction
  cases hp : s.txPhase <;> rw [hp] at h
  case settle0 | bitHigh | bitLow | finalWait => rfl
  all_goals cases h

theorem State.txAction_of_not_waits {s : State} (hne : s.txPhase ≠ .idle)
    (h : s.txPhase.waits = false) : ∃ l b, s.txAction = .drive l b := by
  unfold State.txAction
  cases hp : s.txPhase <;> rw [hp] at h hne
  case idle => exact absurd rfl hne
  case settle0 | bitHigh | bitLow | finalWait => cases h
  all_goals exact ⟨_, _, rfl⟩

/-- The exit of a wait is enabled once its minimum is over (R142). -/
theorem State.minimum_le_of_txEnabled {s : State} (h : s.txPhase.waits = true)
    (hen : s.txEnabled = true) : s.txT0 + s.txPhase.minimum ≤ s.now := by
  simpa [State.txEnabled, State.txAction_of_waits h] using hen

/-- A wait is left to a phase that does not wait (R141). -/
theorem State.txStep_not_waits {s : State} (h : s.txPhase.waits = true) :
    s.txStep.txPhase.waits = false := by
  by_contra hw
  obtain ⟨l, b, ha⟩ := State.drive_of_txStep_waits (by simpa using hw)
  rw [State.txAction_of_waits h] at ha
  cases ha

/-- A line write takes no time (R141, R152). -/
theorem State.leastElapsed_txStep_of_not_waits {s : State} (h : s.txPhase.waits = false) :
    leastElapsed s.txStep.txPhase s.txStep.txBit = leastElapsed s.txPhase s.txBit := by
  rw [State.txStep_txPhase, State.txStep_txBit]
  cases hp : s.txPhase <;> rw [hp] at h
  case settle0 | bitHigh | bitLow | finalWait => cases h
  case opening => cases s.params.explicitClkLow <;> rfl
  all_goals rfl

/-- The exit of a settle wait adds the wait's minimum (R152, R153). -/
theorem State.leastElapsed_txStep_of_waits {s : State} (h : s.txPhase.waits = true)
    (hf : s.txPhase ≠ .finalWait) :
    leastElapsed s.txStep.txPhase s.txStep.txBit =
      leastElapsed s.txPhase s.txBit + s.txPhase.minimum := by
  rw [State.txStep_txPhase, State.txStep_txBit]
  cases hp : s.txPhase <;> rw [hp] at h
  case settle0 => rfl
  case bitHigh => rfl
  case bitLow =>
    by_cases h0 : s.txBit = 0
    · rw [h0]; rfl
    · have hpos : 0 < s.txBit.toNat := by bv_omega
      have hsub : (s.txBit - 1).toNat = s.txBit.toNat - 1 := by bv_omega
      have hmin : Phase.bitLow.minimum = 1 := rfl
      simp only [txSuccessor, if_neg h0, leastElapsed, hsub, hmin]
      omega
  case finalWait => exact absurd hp hf
  all_goals cases h

/-- A SEND has lasted 43 µs when its step leaves the final wait, and else what its next phase says (R153). -/
theorem State.txStep_sendingSince {s : State} {start : Nat} (h : s.sendingSince start)
    (hen : s.txEnabled = true) :
    s.txStep.sendingSince start ∨ s.txStep.txPhase = .idle ∧ start + 43 ≤ s.txStep.now := by
  obtain ⟨hne, hle⟩ := h
  have hidle : s.txStep.txPhase = .idle ↔ s.txPhase = .finalWait := by
    rw [State.txStep_txPhase, txSuccessor_eq_idle, or_iff_right hne]
  cases hw : s.txPhase.waits with
  | false =>
    have hf : s.txPhase ≠ .finalWait := by
      intro hf; rw [hf] at hw; cases hw
    refine .inl ⟨hidle.not.2 hf, ?_⟩
    rw [hw] at hle
    rw [State.leastElapsed_txStep_of_not_waits hw, State.txStep_txT0, State.txStep_now]
    split <;> exact hle
  | true =>
    have hmin := State.minimum_le_of_txEnabled hw hen
    rw [hw, if_pos rfl] at hle
    by_cases hf : s.txPhase = .finalWait
    · refine .inr ⟨hidle.2 hf, ?_⟩
      rw [hf] at hle hmin
      change start + 33 ≤ s.txT0 at hle
      change s.txT0 + 10 ≤ s.now at hmin
      rw [State.txStep_now]
      omega
    · refine .inl ⟨hidle.not.2 hf, ?_⟩
      rw [State.leastElapsed_txStep_of_waits hw hf, State.txStep_not_waits hw, State.txStep_now,
        if_neg Bool.false_ne_true]
      omega

theorem State.SameBlock.sendingSince {s t : State} {start : Nat} (k : s.SameBlock t)
    (h : s.sendingSince start) : t.sendingSince start := by
  obtain ⟨hne, hle⟩ := h
  refine ⟨by rwa [k.txPhase], ?_⟩
  rw [k.txPhase, k.txBit, k.txT0]
  refine hle.trans ?_
  split
  · exact le_rfl
  · exact k.now_le

/-- Settles O54: a line write takes no time, and the waits add up to 33 and 10 µs. -/
theorem sendLastsAtLeast43Microseconds : Obligations.SendLastsAtLeast43Microseconds := by
  constructor
  · intro s t hc h
    rw [exec_send_of_canAccept hc] at h
    cases h
    exact ⟨by simp, le_rfl⟩
  · intro s t start hs hr h
    rcases step_cases_of_sending hs.1 hr h with ⟨hen, rfl⟩ | hk
    · exact State.txStep_sendingSince (s := s.popTurn) hs hen
    · exact .inl (hk.sendingSince hs)

/-! ## Waits and the events after them (R142, R152) -/

theorem exists_getLast?_of_lastTime {h : List LineEvent} {n : Nat} (hl : lastTime h = some n) :
    ∃ e, h.getLast? = some e ∧ e.time = n := by
  simpa [lastTime] using hl

/-- Settles O35: only the wait's exit leaves the phase, and the wait was entered at the last event's time. -/
theorem waitsHoldTheirMinimum : Obligations.WaitsHoldTheirMinimum := by
  intro s t hinv hw hr h hne
  rcases step_cases_of_sending (Phase.ne_idle_of_waits hw) hr h with ⟨hen, rfl⟩ | hk
  · obtain ⟨e, he, htime⟩ := exists_getLast?_of_lastTime (hinv.waitEntry hw)
    refine ⟨e, he, ?_, ?_⟩
    · rw [htime]
      exact State.minimum_le_of_txEnabled hw hen
    · rw [State.txStep_history,
        State.txDrive_of_wait (State.txAction_of_waits (s := s.popTurn) hw), State.popTurn_history]
  · exact absurd hk.txPhase hne

theorem Phase.writes_of_afterSettle {p : Phase} (h : p.afterSettle = true) :
    p ≠ .idle ∧ p.waits = false := by
  cases p
  case bitData | bitFall | closing => exact ⟨by decide, rfl⟩
  all_goals cases h

/-- Settles O36: the step is the phase's line write, stamped after the settle wait. -/
theorem settleSeparatesEvents : Obligations.SettleSeparatesEvents := by
  intro s t hinv has hr h hne
  obtain ⟨hidle, hw⟩ := Phase.writes_of_afterSettle has
  obtain ⟨hlast, hmin⟩ := hinv.settled has
  obtain ⟨e, he, htime⟩ := exists_getLast?_of_lastTime hlast
  rcases step_cases_of_sending hidle hr h with ⟨-, rfl⟩ | hk
  · obtain ⟨l, b, ha⟩ := State.txAction_of_not_waits (s := s.popTurn) hidle hw
    refine ⟨e, ⟨l, b, s.now⟩, he, ?_, by rwa [htime]⟩
    rw [State.txStep_history, State.txDrive_of_drive ha, State.writeLine_history,
      State.popTurn_history, State.popTurn_now]
  · exact absurd hk.history hne

end Sys2Proof.Machine
end

section
/-! PROOFS. The step of every phase of the SEND sequence, and runs of the machine (41_transmitter.md): R141 to
R149, R151. -/

namespace Sys2Proof.Machine

/-! ## The next state of every phase (R141, R142, R149) -/

theorem State.txStep_of_drive {s : State} {l : Line} {b : Level} (h : s.txAction = .drive l b) :
    s.txStep = (s.writeLine l b).enter (txSuccessor s.params.explicitClkLow s.txPhase s.txBit).1
      (txSuccessor s.params.explicitClkLow s.txPhase s.txBit).2 := by
  rw [State.txStep, State.txDrive_of_drive h]

theorem State.txStep_of_wait {s : State} {d : Nat} (h : s.txAction = .wait d) :
    s.txStep = s.enter (txSuccessor s.params.explicitClkLow s.txPhase s.txBit).1
      (txSuccessor s.params.explicitClkLow s.txPhase s.txBit).2 := by
  rw [State.txStep, State.txDrive_of_wait h]

section
variable {s : State}

theorem State.txStep_opening (hp : s.txPhase = .opening) : s.txStep =
    if s.params.explicitClkLow
      then { s with
        ceN := false, history := s.history ++ [⟨.ceN, false, s.now⟩], txPhase := .openClk }
      else { s with
        ceN := false, history := s.history ++ [⟨.ceN, false, s.now⟩],
        txPhase := .settle0, txT0 := s.now } := by
  rw [txStep_of_drive (by rw [txAction, hp]), hp]
  cases he : s.params.explicitClkLow <;> rfl

theorem State.txStep_openClk (hp : s.txPhase = .openClk) : s.txStep =
    { s with
      clk := false, history := s.history ++ [⟨.clk, false, s.now⟩],
      txPhase := .settle0, txT0 := s.now } := by
  rw [txStep_of_drive (by rw [txAction, hp]), hp]
  rfl

theorem State.txStep_settle0 (hp : s.txPhase = .settle0) : s.txStep =
    { s with txPhase := .bitData, txBit := 15 } := by
  rw [txStep_of_wait (by rw [txAction, hp]), hp]
  rfl

theorem State.txStep_bitData (hp : s.txPhase = .bitData) : s.txStep =
    { s with
      data := s.txWord.getLsbD s.txBit.toNat,
      history := s.history ++ [⟨.data, s.txWord.getLsbD s.txBit.toNat, s.now⟩],
      txPhase := .bitRise } := by
  rw [txStep_of_drive (by rw [txAction, hp]), hp]
  rfl

theorem State.txStep_bitRise (hp : s.txPhase = .bitRise) : s.txStep =
    { s with
      clk := true, history := s.history ++ [⟨.clk, true, s.now⟩],
      txPhase := .bitHigh, txT0 := s.now } := by
  rw [txStep_of_drive (by rw [txAction, hp]), hp]
  rfl

theorem State.txStep_bitHigh (hp : s.txPhase = .bitHigh) : s.txStep =
    { s with txPhase := .bitFall } := by
  rw [txStep_of_wait (by rw [txAction, hp]), hp]
  rfl

theorem State.txStep_bitFall (hp : s.txPhase = .bitFall) : s.txStep =
    { s with
      clk := false, history := s.history ++ [⟨.clk, false, s.now⟩],
      txPhase := .bitLow, txT0 := s.now } := by
  rw [txStep_of_drive (by rw [txAction, hp]), hp]
  rfl

theorem State.txStep_bitLow (hp : s.txPhase = .bitLow) : s.txStep =
    if s.txBit = 0 then { s with txPhase := .closing }
      else { s with txPhase := .bitData, txBit := s.txBit - 1 } := by
  rw [txStep_of_wait (by rw [txAction, hp]), hp, txSuccessor]
  split <;> rfl

theorem State.txStep_closing (hp : s.txPhase = .closing) : s.txStep =
    { s with
      ceN := true, history := s.history ++ [⟨.ceN, true, s.now⟩],
      txPhase := .finalWait, txT0 := s.now } := by
  rw [txStep_of_drive (by rw [txAction, hp]), hp]
  rfl

theorem State.txStep_finalWait (hp : s.txPhase = .finalWait) : s.txStep =
    { s with txPhase := .idle } := by
  rw [txStep_of_wait (by rw [txAction, hp]), hp]
  rfl

/-! ## The block's turn during a SEND (R142) -/

theorem State.ne_idle_of_drive {l : Line} {b : Level} (h : s.txAction = .drive l b) :
    s.txPhase ≠ .idle := by
  intro hp; rw [txAction, hp] at h; cases h

theorem State.ne_idle_of_wait {d : Nat} (h : s.txAction = .wait d) : s.txPhase ≠ .idle := by
  intro hp; rw [txAction, hp] at h; cases h

theorem letBlock_of_sending (hr : s.resetIn = false) (hne : s.txPhase ≠ .idle) :
    letBlock s = .next (if s.txEnabled then s.txStep else s) := by
  have hen : s.blockEnabled = s.txEnabled := by simp [State.blockEnabled, hr, hne]
  rw [letBlock, hen, blockStep, if_neg hne]
  split <;> rfl

theorem letBlock_of_drive {l : Line} {b : Level} (hr : s.resetIn = false)
    (ha : s.txAction = .drive l b) : letBlock s = .next s.txStep := by
  rw [letBlock_of_sending hr (State.ne_idle_of_drive ha), State.txEnabled, ha, if_pos rfl]

theorem letBlock_of_wait {d : Nat} (hr : s.resetIn = false) (ha : s.txAction = .wait d) :
    letBlock s = .next (if s.txT0 + d ≤ s.now then s.txStep else s) := by
  rw [letBlock_of_sending hr (State.ne_idle_of_wait ha), State.txEnabled, ha]
  simp only [decide_eq_true_eq]

theorem letBlock_of_wait_over {d : Nat} (hr : s.resetIn = false) (ha : s.txAction = .wait d)
    (hle : s.txT0 + d ≤ s.now) : letBlock s = .next s.txStep := by
  rw [letBlock_of_wait hr ha, if_pos hle]

theorem step_eq_letBlock (hturns : s.turns = []) : step s = letBlock s := by
  rw [step_of_blockTurn (by rw [hturns]; rfl), State.popTurn_of_nil hturns]

end

/-- Settles O30: the step is the transmitter's, with its next state in each phase. -/
theorem sequenceSteps : Obligations.SequenceSteps := by
  intro s hturns hr
  rw [step_eq_letBlock hturns]
  refine ⟨fun hp => ?_, fun hp => ?_, fun hp => ?_, fun hp => ?_, fun hp => ?_, fun hp => ?_,
    fun hp => ?_, fun hp => ?_, fun hp => ?_, fun hp => ?_⟩
  · rw [letBlock_of_drive hr (by rw [State.txAction, hp]), State.txStep_opening hp]
  · rw [letBlock_of_drive hr (by rw [State.txAction, hp]), State.txStep_openClk hp]
  · rw [letBlock_of_wait hr (by rw [State.txAction, hp]), State.txStep_settle0 hp, Config.tSettle]
  · rw [letBlock_of_drive hr (by rw [State.txAction, hp]), State.txStep_bitData hp]
  · rw [letBlock_of_drive hr (by rw [State.txAction, hp]), State.txStep_bitRise hp]
  · rw [letBlock_of_wait hr (by rw [State.txAction, hp]), State.txStep_bitHigh hp, Config.tSettle]
  · rw [letBlock_of_drive hr (by rw [State.txAction, hp]), State.txStep_bitFall hp]
  · rw [letBlock_of_wait hr (by rw [State.txAction, hp]), State.txStep_bitLow hp, Config.tSettle]
  · rw [letBlock_of_drive hr (by rw [State.txAction, hp]), State.txStep_closing hp]
  · rw [letBlock_of_wait hr (by rw [State.txAction, hp]), State.txStep_finalWait hp, Config.tFinal]

/-! ## Runs -/

theorem run_succ_of_next {M : Host.Core} {s t : M.State} (h : M.step s = .next t) (n : Nat) :
    M.run (n + 1) s = M.run n t := by
  rw [Host.Core.run, h]

/-- A run goes on from the state its first part ends in. -/
theorem run_add_of_next {M : Host.Core} {m : Nat} {s t : M.State} (h : M.run m s = .next t)
    (n : Nat) : M.run (m + n) s = M.run n t := by
  induction m generalizing s with
  | zero => cases h; rw [Nat.zero_add]
  | succ m ih =>
    rw [Host.Core.run] at h
    split at h
    · rename_i u hu
      rw [Nat.succ_add, run_succ_of_next hu, ih h]
    all_goals cases h

/-- Settles O53: the two steps are those of `Open` and `OpenClk`, and `CLK` is low already in `Open`. -/
theorem explicitClockLowAddsOneEvent : Obligations.ExplicitClockLowAddsOneEvent := by
  refine ⟨fun s hinv hturns hp he => ?_, fun w => ⟨length_sendTrace true w, length_sendTrace false w⟩⟩
  have hr : s.resetIn = false := by
    by_contra hr
    have hidle := (hinv.resetIdle (by simpa using hr)).1
    rw [hp] at hidle
    cases hidle
  have hclk : s.clk = false := by rw [hinv.lines.2, hp]; rfl
  obtain ⟨hopen, -⟩ := sequenceSteps s hturns hr
  obtain ⟨-, hlow, -⟩ := sequenceSteps { s with
    ceN := false, history := s.history ++ [⟨.ceN, false, s.now⟩], txPhase := .openClk } hturns hr
  replace hopen := hopen hp
  rw [he, if_pos rfl] at hopen
  have hrun := (run_succ_of_next (M := core) hopen 1).trans (run_succ_of_next (hlow rfl) 0)
  refine ⟨_, hrun, rfl, hclk.symm, ?_⟩
  simp [writes, LineEvent.write]

end Sys2Proof.Machine
end

section
/-! PROOFS. What the receiver makes of a SEND's write trace (41_transmitter.md): R160 to R162. -/

namespace Sys2Proof.Machine

/-! ## The low bits of a word, most significant first (R77, R161) -/

/-- Bits `n - 1` to 0 of a word. -/
def lowBits (w : Word16) : Nat → List Level
  | 0 => []
  | n + 1 => w.getLsbD n :: lowBits w n

theorem msbFirst_eq_lowBits (w : Word16) : msbFirst w = lowBits w 16 := rfl

/-- One sample more: the receiver shifts it in as the least significant bit (R161). -/
theorem shiftIn_getLsbD (w : Word16) (n : Nat) :
    (w >>> (n + 1)) <<< 1 ||| (BitVec.ofBool (w.getLsbD n)).setWidth 16 = w >>> n := by
  ext i hi
  cases i with
  | zero => simp
  | succ i => simp [Nat.add_assoc, Nat.add_comm 1]

/-- What is left of a word is shifted in behind its upper part. -/
theorem foldl_lowBits (w : Word16) (n : Nat) :
    (lowBits w n).foldl (fun (v : Word16) b => v <<< 1 ||| (BitVec.ofBool b).setWidth 16)
      (w >>> n) = w := by
  induction n with
  | zero => simp [lowBits]
  | succ n ih => rw [lowBits, List.foldl_cons, shiftIn_getLsbD, ih]

theorem receivedWord_msbFirst (w : Word16) : receivedWord (msbFirst w) = some w := by
  have hzero : w >>> 16 = 0 := BitVec.ushiftRight_eq_zero le_rfl
  have hlen : (msbFirst w).length = 16 := rfl
  rw [receivedWord, if_pos hlen, msbFirst_eq_lowBits, ← hzero, foldl_lowBits]

/-! ## What the receiver observes of a write trace (R160, R161) -/

/-- The receiver's view of a line write; it does not use the time. -/
def RxView.observeWrite (r : RxView) (p : Line × Level) : RxView := r.observe ⟨p.1, p.2, 0⟩

theorem receive_append (h events : List LineEvent) :
    receive (h ++ events) = (writes events).foldl RxView.observeWrite (receive h) := by
  rw [receive, List.foldl_append, writes, List.foldl_map]
  rfl

/-- With `CE_N` low, the triples of some bits add these bits to the samples of the open transaction (R160). -/
theorem foldl_observeWrite_bits (bits samples : List Level) {r : RxView} (hclk : r.clk = false)
    (hceN : r.ceN = false) (hcur : r.current = some samples) :
    ∃ d, (bits.flatMap bitTrace).foldl RxView.observeWrite r =
      { r with data := d, current := some (samples ++ bits) } := by
  induction bits generalizing r samples with
  | nil => exact ⟨r.data, by simp [← hcur]⟩
  | cons b bits ih =>
    have hb : (bitTrace b).foldl RxView.observeWrite r =
        { r with data := b, current := some (samples ++ [b]) } := by
      simp [bitTrace, RxView.observeWrite, RxView.observe, hclk, hceN, hcur]
    rw [List.flatMap_cons, List.foldl_append, hb]
    obtain ⟨d, hd⟩ := ih (samples ++ [b]) (r := { r with data := b, current := some (samples ++ [b]) })
      hclk hceN rfl
    exact ⟨d, by rw [hd, List.append_assoc]; rfl⟩

/-- From idle lines the write trace of a SEND is one closed transaction of the word's bits (R151, R161). -/
theorem foldl_observeWrite_sendTrace (e : Bool) (w : Word16) {r : RxView} (hceN : r.ceN = true)
    (hclk : r.clk = false) :
    ((sendTrace e w).foldl RxView.observeWrite r).closed = r.closed ++ [msbFirst w] := by
  have hopen : ([(Line.ceN, false)] ++ (if e then [(Line.clk, false)] else [])).foldl
      RxView.observeWrite r = { r with ceN := false, current := some [] } := by
    cases e <;> simp [RxView.observeWrite, RxView.observe, hclk, hceN]
  obtain ⟨d, hbits⟩ := foldl_observeWrite_bits (msbFirst w) []
    (r := { r with ceN := false, current := some [] }) hclk rfl rfl
  rw [sendTrace, List.foldl_append, List.foldl_append, hopen, hbits]
  rfl

/-- Settles O34: the trace closes one transaction, and its samples are the word's bits. -/
theorem receiverGetsTheWord : Obligations.ReceiverGetsTheWord := by
  intro h events e w hceN hclk hevents
  have hclosed : (receive (h ++ events)).closed = (receive h).closed ++ [msbFirst w] := by
    rw [receive_append, hevents, foldl_observeWrite_sendTrace e w hceN hclk]
  constructor
  · rw [receivedWords, hclosed, List.map_append, List.map_singleton, receivedWord_msbFirst]
    rfl
  · rw [hclosed, List.length_append]
    rfl

end Sys2Proof.Machine
end

section
/-! PROOFS. A SEND under the schedule that ends every wait at its minimum (41_transmitter.md): R150, R151,
R153. -/

namespace Sys2Proof.Machine

/-! ## Listed turns (log 1) -/

/-- The machine's steps for the listed turns `w` take `s` to `t`, whatever is listed after them. -/
def Plays (w : List Turn) (s t : State) : Prop :=
  ∀ rest, core.run w.length { s with turns := w ++ rest } = .next { t with turns := rest }

theorem Plays.append {w w' : List Turn} {s t u : State} (h : Plays w s t) (h' : Plays w' t u) :
    Plays (w ++ w') s u := by
  intro rest
  rw [List.length_append, List.append_assoc]
  exact (run_add_of_next (h (w' ++ rest)) _).trans (h' rest)

theorem Plays.of_step {a : Turn} {s t : State}
    (h : ∀ rest, step { s with turns := a :: rest } = .next { t with turns := rest }) :
    Plays [a] s t :=
  fun rest => run_succ_of_next (M := core) (h rest) 0

/-- The transmitter's step does not look at the schedule. -/
theorem State.txStep_turns {s : State} (hne : s.txPhase ≠ .idle) (rest : List Turn) :
    State.txStep { s with turns := rest } = { s.txStep with turns := rest } := by
  rcases State.txAction_cases hne with ⟨l, b, ha⟩ | ⟨d, ha⟩
  · rw [State.txStep_of_drive ha, State.txStep_of_drive (s := { s with turns := rest }) ha]
    cases l <;> rfl
  · rw [State.txStep_of_wait ha, State.txStep_of_wait (s := { s with turns := rest }) ha]
    rfl

/-- The block's turn in a phase that writes a line (R141). -/
theorem plays_drive {s t : State} {l : Line} {b : Level} (hr : s.resetIn = false)
    (ha : s.txAction = .drive l b) (ht : s.txStep = t) : Plays [.block] s t :=
  .of_step fun rest => by
    rw [step_of_blockTurn rfl, ← ht, ← State.txStep_turns (State.ne_idle_of_drive ha)]
    exact letBlock_of_drive (s := { s with turns := rest }) hr ha

/-- The time base's advance by the minimum of a wait just entered, and the block's turn that leaves it
(R142). -/
theorem plays_wait {s t : State} {d : Nat} (hr : s.resetIn = false) (ha : s.txAction = .wait d)
    (hT : s.txT0 = s.now) (ht : (s.advance d).txStep = t) : Plays (waitTurns d) s t := by
  have htime : Plays [.time d] s (s.advance d) := .of_step fun _ => rfl
  refine htime.append (.of_step fun rest => ?_)
  have hne : (s.advance d).txPhase ≠ .idle := State.ne_idle_of_wait ha
  rw [step_of_blockTurn rfl, ← ht, ← State.txStep_turns hne]
  refine letBlock_of_wait_over (s := { s.advance d with turns := rest }) hr ha ?_
  exact (congrArg (· + d) hT).le

/-! ## The parts of a SEND -/

theorem acceptCommand_of_command {s : State} {i : Instr} (hd : decode s.cmd = .command i) :
    acceptCommand s = exec i s := by
  rw [acceptCommand, hd]

/-- Acceptance of a presented SEND (R140). -/
theorem plays_accept {s : State} (hc : s.canAccept = true) (hp : s.presented = true)
    (hcmd : s.cmd = encode .send) : Plays [.block] s s.take.beginSend :=
  .of_step fun rest => by
    have hd : decode s.cmd = .command .send := by rw [hcmd, decodeInvertsEncode]
    rw [step_of_acceptable (s := { s with turns := .block :: rest }) hc hp rfl]
    exact (acceptCommand_of_command (s := { s with turns := rest }) hd).trans
      (exec_send_of_canAccept (s := { s with turns := rest }) hc)

/-- The opening, with `CLK` low written where it is explicit, and its settle wait (R143, R144, R149). -/
theorem plays_opening {s : State} (hp : s.txPhase = .opening) (hr : s.resetIn = false) :
    ∃ events b, writes events =
        [(.ceN, false)] ++ (if s.params.explicitClkLow then [(.clk, false)] else []) ∧
      Plays ([.block] ++ (if s.params.explicitClkLow then [.block] else []) ++
          waitTurns Config.tSettle) s
        { s with
          ceN := false, clk := b, history := s.history ++ events, txPhase := .bitData, txBit := 15,
          txT0 := s.now, now := s.now + 1 } := by
  have ha : s.txAction = .drive .ceN false := by rw [State.txAction, hp]
  have ht := State.txStep_opening hp
  cases he : s.params.explicitClkLow <;> rw [he] at ht
  case false =>
    exact ⟨[⟨.ceN, false, s.now⟩], s.clk, rfl,
      (plays_drive hr ha ht).append (plays_wait hr rfl rfl (State.txStep_settle0 rfl))⟩
  case true =>
    have h := ((plays_drive hr ha ht).append (plays_drive hr rfl (State.txStep_openClk rfl))).append
      (plays_wait hr rfl rfl (State.txStep_settle0 rfl))
    refine ⟨[⟨.ceN, false, s.now⟩, ⟨.clk, false, s.now⟩], false, rfl, ?_⟩
    simpa [Config.tSettle] using h

/-- The three events of a bit sent from time `t` on (R145). -/
def bitEvents (b : Level) (t : Nat) : List LineEvent :=
  [⟨.data, b, t⟩, ⟨.clk, true, t⟩, ⟨.clk, false, t + 1⟩]

theorem writes_bitEvents (b : Level) (t : Nat) : writes (bitEvents b t) = bitTrace b := rfl

/-- The state after the turns of one bit, where its last wait leads to phase `p` with index `bit` (R145). -/
def State.bitSent (s : State) (p : Phase) (bit : BitVec 4) : State :=
  { s with
    data := s.txDataBit, clk := false, history := s.history ++ bitEvents s.txDataBit s.now,
    txPhase := p, txBit := bit, txT0 := s.now + 1, now := s.now + 2 }

/-- The turns of one bit: three line writes and two settle waits (R145). -/
theorem plays_bit {s : State} (hp : s.txPhase = .bitData) (hr : s.resetIn = false) :
    Plays bitTurns s (if s.txBit = 0 then s.bitSent .closing s.txBit
      else s.bitSent .bitData (s.txBit - 1)) := by
  have ha : s.txAction = .drive .data s.txDataBit := by rw [State.txAction, hp]
  have h := ((((plays_drive hr ha (State.txStep_bitData hp)).append
    (plays_drive hr rfl (State.txStep_bitRise rfl))).append
    (plays_wait hr rfl rfl (State.txStep_bitHigh rfl))).append
    (plays_drive hr rfl (State.txStep_bitFall rfl))).append
    (plays_wait hr rfl rfl (State.txStep_bitLow rfl))
  simpa [bitTurns, State.bitSent, bitEvents, State.txDataBit, Config.tSettle, Nat.add_assoc] using h

/-- The turns of the bits from the current index down to 0 (R145, R146). -/
theorem plays_bits {n : Nat} {s : State} (hp : s.txPhase = .bitData) (hr : s.resetIn = false)
    (hn : s.txBit.toNat = n) :
    ∃ events, writes events = (lowBits s.txWord (n + 1)).flatMap bitTrace ∧
      Plays (List.replicate (n + 1) bitTurns).flatten s
        { s with
          data := s.txWord.getLsbD 0, clk := false, history := s.history ++ events,
          txPhase := .closing, txBit := 0, txT0 := s.now + 2 * n + 1, now := s.now + 2 * (n + 1) } := by
  induction n generalizing s with
  | zero =>
    have h0 : s.txBit = 0 := BitVec.eq_of_toNat_eq hn
    have hbit := plays_bit hp hr
    rw [if_pos h0, h0] at hbit
    refine ⟨bitEvents s.txDataBit s.now, ?_, ?_⟩
    · rw [writes_bitEvents, State.txDataBit, hn]
      rfl
    · have hdata : s.txWord.getLsbD 0 = s.txDataBit := by rw [State.txDataBit, hn]
      rw [hdata]
      exact hbit
  | succ n ih =>
    have h0 : s.txBit ≠ 0 := by rintro h0; rw [h0] at hn; cases hn
    have hsub : (s.txBit - 1).toNat = n := by bv_omega
    have hbit := plays_bit hp hr
    rw [if_neg h0] at hbit
    obtain ⟨events, hevents, hrest⟩ := ih (s := s.bitSent .bitData (s.txBit - 1)) rfl hr hsub
    have hT : s.now + 2 * (n + 1) + 1 = s.now + 2 + 2 * n + 1 := by omega
    have hnow : s.now + 2 * (n + 1 + 1) = s.now + 2 + 2 * (n + 1) := by omega
    refine ⟨bitEvents s.txDataBit s.now ++ events, ?_, ?_⟩
    · have hdata : s.txWord.getLsbD (n + 1) = s.txDataBit := by rw [State.txDataBit, hn]
      rw [lowBits, List.flatMap_cons, hdata, writes, List.map_append]
      exact congrArg _ hevents
    · rw [hT, hnow, ← List.append_assoc]
      exact hbit.append hrest

/-- The closing and the final wait (R147). -/
theorem plays_closing {s : State} (hp : s.txPhase = .closing) (hr : s.resetIn = false) :
    Plays ([.block] ++ waitTurns Config.tFinal) s
      { s with
        ceN := true, history := s.history ++ [⟨.ceN, true, s.now⟩], txPhase := .idle,
        txT0 := s.now, now := s.now + 10 } := by
  have ha : s.txAction = .drive .ceN true := by rw [State.txAction, hp]
  exact (plays_drive hr ha (State.txStep_closing hp)).append
    (plays_wait hr rfl rfl (State.txStep_finalWait rfl))

theorem plays_eagerTurns {s : State} (hc : s.canAccept = true) (hpres : s.presented = true)
    (hcmd : s.cmd = encode .send) :
    ∃ events, writes events = sendTrace s.params.explicitClkLow s.wordOperand ∧
      Plays (eagerTurns s.params.explicitClkLow) s
        { s with
          presented := false, txWord := s.wordOperand, txPhase := .idle, txBit := 0,
          txT0 := s.now + 33, now := s.now + 43, data := s.wordOperand.getLsbD 0, clk := false,
          ceN := true, history := s.history ++ events } := by
  obtain ⟨-, -, hr⟩ := (State.canAccept_iff s).1 hc
  obtain ⟨opening, b, hopening, hopen⟩ := plays_opening (s := s.take.beginSend) rfl hr
  obtain ⟨bits, hbits, hmid⟩ := plays_bits (n := 15) (s := { s.take.beginSend with
    ceN := false, clk := b, history := s.history ++ opening, txPhase := .bitData, txBit := 15,
    txT0 := s.now, now := s.now + 1 }) rfl hr rfl
  have hall := (((plays_accept hc hpres hcmd).append hopen).append hmid).append (plays_closing rfl hr)
  have hevents : writes (opening ++ bits ++ [⟨.ceN, true, s.now + 33⟩]) =
      sendTrace s.params.explicitClkLow s.wordOperand := by
    change writes opening = _ at hopening
    rw [writes, List.map_append, List.map_append, ← writes, ← writes, hopening, hbits]
    rfl
  refine ⟨_, hevents, ?_⟩
  rw [← List.append_assoc, ← List.append_assoc]
  have hturns : eagerTurns s.params.explicitClkLow = [.block] ++ ([.block] ++
      (if s.params.explicitClkLow then [.block] else []) ++ waitTurns Config.tSettle) ++
      (List.replicate 16 bitTurns).flatten ++ ([.block] ++ waitTurns Config.tFinal) := by
    simp [eagerTurns]
  rw [hturns]
  exact hall

/-- Settles O32: acceptance, the opening, the 16 bits and the closing, one after another. -/
theorem sendCompletes : Obligations.SendCompletes := by
  intro s hc hpres hcmd hturns
  obtain ⟨events, hevents, hplays⟩ := plays_eagerTurns hc hpres hcmd
  have hlen : events.length = (sendTrace s.params.explicitClkLow s.wordOperand).length := by
    rw [← hevents, writes, List.length_map]
  refine ⟨events, hevents, ?_, ?_⟩
  · rw [hlen, length_sendTrace]
    cases s.params.explicitClkLow <;> rfl
  · have hrun := hplays []
    rw [List.append_nil, ← hturns] at hrun
    have hdata : s.x.getLsbD 0 = s.wordOperand.getLsbD 0 := by simp [State.wordOperand]
    rw [hdata]
    exact hrun

end Sys2Proof.Machine
end

section
/-! PROOFS. Faults (60_exceptions.md): a faulted block is stuck until reset, and every fault is precise (R171, R173,
R175). -/

namespace Sys2Proof.Machine

theorem State.canAccept_of_fault {s : State} (hf : s.fault ≠ none) : s.canAccept = false := by
  rw [← Bool.not_eq_true, State.canAccept_iff]
  rintro ⟨-, hnone, -⟩
  exact hf hnone

/-- A faulted block accepts nothing and has no SEND to continue, so only reset changes it (R171, R175). -/
theorem State.Inv.step_sameBlock_of_fault {s t : State} (hinv : s.Inv) (hf : s.fault ≠ none)
    (hr : s.resetNext = false) (h : Machine.step s = .next t) : s.SameBlock t := by
  rcases step_block_cases h with ⟨hacc, -⟩ | ⟨-, hne, -⟩ | ⟨hreset, -⟩ | hk
  · simp [State.canAccept_of_fault hf] at hacc
  · exact absurd (hinv.faultIdle hf) hne
  · simp [hr] at hreset
  · exact hk

/-- Settles O38: the step leaves the block's state, which is that of a faulted block in `Idle`. -/
theorem faultedBlockIsStuck : Obligations.FaultedBlockIsStuck := by
  intro s t k hinv hfault hr h
  have hf : s.fault ≠ none := by simp [hfault]
  have hk : s.SameBlock t := hinv.step_sameBlock_of_fault hf hr h
  exact ⟨hk.fault.trans hfault, hk.res, hk.txPhase.trans (hinv.faultIdle hf), hk.txWord, hk.history,
    hk.data, hk.clk, hk.ceN, State.canAccept_of_fault (hk.fault ▸ hf)⟩

/-- A step that changes `FAULT` is the acceptance that raises it, or the host's reset that clears it (R33). -/
theorem step_cases_of_fault_ne {s t : State} (h : step s = .next t) (hne : t.fault ≠ s.fault) :
    (s.canAccept = true ∧ s.presented = true ∧ ∃ k, t = s.popTurn.take.raiseFault k) ∨
      (s.resetNext = true ∧ t = s.popTurn.popPending.assertReset) := by
  rcases step_block_cases h with ⟨hc, hp, ⟨v, rfl⟩ | hraise | rfl⟩ | ⟨-, -, -, rfl⟩ | hreset | hk
  · simp at hne
  · exact .inl ⟨hc, hp, hraise⟩
  · simp at hne
  · simp at hne
  · exact .inr hreset
  · exact absurd hk.fault hne

/-- Settles O39: the raising acceptance takes the command and the turn, and writes `FAULT` alone. -/
theorem faultsArePrecise : Obligations.FaultsArePrecise := by
  intro s t h hne
  rcases step_cases_of_fault_ne h hne with ⟨hc, hp, k, rfl⟩ | ⟨hr, rfl⟩
  · exact .inr ⟨hc, hp, ((State.canAccept_iff s).1 hc).1, by simp, rfl⟩
  · exact .inl ⟨hr, State.assertReset_fault _⟩

end Sys2Proof.Machine
end

section
/-! PROOFS. The host's turn and reset (70_reset_and_hazards.md): R178, R190 to R192, R206 to R208. -/

namespace Sys2Proof.Machine

/-! ## The host's turn (R206 to R208) -/

/-- No host move moves the time base, or changes what the host does next (R180, log 1). -/
theorem hostMove_now_pending {a : HostMove} {s t : State} (h : hostMove a s = .next t) :
    t.now = s.now ∧ t.pending = s.pending := by
  rcases hostMove_cases h with ⟨v, -, rfl⟩ | ⟨v, p, -, rfl⟩ | ⟨c, -, rfl⟩ | ⟨b, -, rfl⟩ |
    ⟨b, -, rfl⟩ | ⟨-, rfl⟩ | ⟨-, rfl⟩ <;> simp

/-- Settles O42: a host move that does not assert reset leaves the block's state (`hostMove_sameBlock`). -/
theorem hostNeverWritesBlockState : Obligations.HostNeverWritesBlockState := by
  intro s t a hnext ha h
  rw [step_of_nextHostMove hnext] at h
  have hk := hostMove_sameBlock h ha
  obtain ⟨hnow, -⟩ := hostMove_now_pending h
  exact ⟨hk.data, hk.clk, hk.ceN, hk.history, hk.txPhase, hk.txWord, hk.txBit, hk.txT0, hk.res,
    hk.fault, hnow⟩

theorem State.lastCompleted_iff (s : State) :
    s.lastCompleted = true ↔ s.ready = true ∧ s.resetIn = false ∧ s.presented = false := by
  simp [State.lastCompleted, State.canAccept, and_assoc]

/-- The turn of a host that waits for its last command (R206). -/
theorem hostTurn_of_awaitReady {s : State} {p : List HostAct} (hp : s.pending = .awaitReady :: p) :
    hostTurn s = .next { s with pending := if s.lastCompleted then p else .awaitReady :: p } := by
  have hrest : s.pending.tail = p := congrArg List.tail hp
  rw [hostTurn, hp]
  change (if s.lastCompleted then _ else _) = _
  cases s.lastCompleted with
  | true => rw [if_pos rfl, if_pos rfl, State.popPending, hrest]
  | false => rw [if_neg Bool.false_ne_true, if_neg Bool.false_ne_true, ← hp]

/-- Settles O58: the step is the waiting host's turn. -/
theorem hostWaitsForItsCommand : Obligations.HostWaitsForItsCommand := by
  intro s w p hw hp
  refine ⟨?_, s.lastCompleted_iff⟩
  rw [step, systemStep, hw, List.headD_cons, takeTurn, State.popTurn, hw, List.tail_cons]
  exact hostTurn_of_awaitReady (s := { s with turns := w }) hp

/-! ## Reset (R190 to R192) -/

theorem State.resetLine_history (s : State) (l : Line) (b : Level) : (s.resetLine l b).history =
    s.history ++ (if s.level l = b then [] else [⟨l, b, s.now⟩]) := by
  unfold State.resetLine
  split <;> simp

/-- One event for each line that is off its reset level (R190; order: log 14). -/
theorem State.resetLines_history (s : State) : s.resetLines.history =
    s.history ++ (if s.data then [⟨.data, false, s.now⟩] else []) ++
      (if s.clk then [⟨.clk, false, s.now⟩] else []) ++
      (if s.ceN then [] else [⟨.ceN, true, s.now⟩]) := by
  rw [resetLines, resetLine_history, resetLine_history, resetLine_history,
    resetLine_level_ne _ _ (by decide), resetLine_level_ne _ _ (by decide),
    resetLine_level_ne _ _ (by decide)]
  simp only [level, reset, ← Bool.not_eq_true, ite_not, resetLine_now]

/-- Settles O45: the step is `State.assertReset`. -/
theorem assertedResetRestoresTheBlock : Obligations.AssertedResetRestoresTheBlock := by
  intro s hnext
  have hst : step s = .next s.popTurn.popPending.assertReset := step_of_nextHostMove hnext
  exact ⟨_, hst, State.resetLines_data _, State.resetLines_clk _, State.resetLines_ceN _, rfl, rfl, rfl,
    rfl, by simp [State.canAccept], State.resetLines_history _, by simp⟩

/-- Settles O46: a block in reset is idle and unfaulted (`State.Inv.resetIdle`). -/
theorem releasedResetIsReady : Obligations.ReleasedResetIsReady := by
  intro s hinv hr hnext
  obtain ⟨hidle, hfault⟩ := hinv.resetIdle hr
  have hst : step s = .next s.popTurn.popPending.releaseReset := step_of_nextHostMove hnext
  have hc : s.popTurn.popPending.releaseReset.canAccept = true :=
    (State.canAccept_iff _).2 ⟨hidle, hfault, rfl⟩
  refine ⟨_, hst, ?_, hc⟩
  simp [State.ready, hidle, hfault]

end Sys2Proof.Machine
end

section
/-! PROOFS. Turns that leave a SEND where it is (70_reset_and_hazards.md): R142, R178, R207, R214. -/

namespace Sys2Proof.Machine

/-! ## Turns in which a SEND does not move on -/

/-- A turn of a block with no step enabled changes nothing (R142). -/
theorem plays_block_of_not_enabled {s : State} (hne : s.txPhase ≠ .idle) (hen : s.txEnabled = false) :
    Plays [.block] s s := by
  have hb : s.blockEnabled = false := by
    rw [← Bool.not_eq_true, State.blockEnabled_iff, State.canAccept_iff]
    simp [hne, hen]
  refine .of_step fun rest => ?_
  rw [step_of_blockTurn rfl, letBlock]
  exact if_neg (Bool.eq_false_iff.1 hb)

theorem plays_replicate {a : Turn} {s : State} (h : Plays [a] s s) (n : Nat) :
    Plays (List.replicate n a) s s := by
  induction n with
  | zero => exact fun _ => rfl
  | succ n ih => exact h.append ih

/-- Settles O56: each of the turns changes nothing. -/
theorem waitsEndOnlyByTime : Obligations.WaitsEndOnlyByTime := by
  intro s n hw hen
  have h := plays_replicate (plays_block_of_not_enabled (Phase.ne_idle_of_waits hw) hen) n []
  rwa [List.length_replicate, List.append_nil] at h

/-- `t` is what `d` microseconds, in which host and time base may have moved, make of `s`: the block is as it
was. -/
structure State.Stays (s : State) (d : Nat) (t : State) : Prop where
  block : s.SameBlock t
  now : t.now = s.now + d
  pending : t.pending ⊆ s.pending

theorem State.SameBlock.refl (s : State) : s.SameBlock s :=
  ⟨by constructor <;> simp, rfl, rfl⟩

theorem State.SameBlock.trans {s t u : State} (h : s.SameBlock t) (k : t.SameBlock u) :
    s.SameBlock u where
  data := k.data.trans h.data
  clk := k.clk.trans h.clk
  ceN := k.ceN.trans h.ceN
  txPhase := k.txPhase.trans h.txPhase
  txWord := k.txWord.trans h.txWord
  txBit := k.txBit.trans h.txBit
  txT0 := k.txT0.trans h.txT0
  history := k.history.trans h.history
  params := k.params.trans h.params
  now_le := h.now_le.trans k.now_le
  resetIn := h.resetIn ∘ k.resetIn
  res := k.res.trans h.res
  fault := k.fault.trans h.fault

theorem State.Stays.refl (s : State) : s.Stays 0 s :=
  ⟨.refl s, rfl, List.Subset.refl _⟩

theorem State.Stays.trans {s t u : State} {d e : Nat} (h : s.Stays d t) (k : t.Stays e u) :
    s.Stays (d + e) u :=
  ⟨h.block.trans k.block, by rw [k.now, h.now, Nat.add_assoc], List.Subset.trans k.pending h.pending⟩

/-- Whether the transmitter may step depends on the block's state and the time alone (R142). -/
theorem State.Stays.txEnabled {s t : State} {d : Nat} (h : s.Stays d t) :
    t.txEnabled = (s.advance d).txEnabled := by
  have hk := h.block
  have ha : t.txAction = (s.advance d).txAction := by
    simp only [State.txAction, State.txDataBit, hk.txPhase, hk.txWord, hk.txBit, advance_txPhase,
      advance_txWord, advance_txBit]
  rw [State.txEnabled, State.txEnabled, ha, h.now, hk.txT0, advance_now, advance_txT0]

/-- A host move that does not assert reset is the same with other turns listed. -/
theorem hostMove_turns {a : HostMove} {s t : State} (h : hostMove a s = .next t)
    (ha : a ≠ .assertReset) (rest : List Turn) :
    hostMove a { s with turns := rest } = .next { t with turns := rest } := by
  cases a with
  | setInt p v => cases h; cases p <;> rfl
  | copyRes p =>
    rcases Option.eq_none_or_eq_some s.res with hres | ⟨v, hres⟩
    · simp [hostMove, hres] at h
    · rw [hostMove_copyRes hres] at h
      cases h
      rw [hostMove_copyRes (s := { s with turns := rest }) hres]
      cases p <;> rfl
  | assertReset => exact absurd rfl ha
  | _ => cases h; rfl

/-- The host's next move where nothing it has pending is harmful: it does not assert reset and it is possible. -/
theorem State.hostIsHarmless.exists_next {s : State} (h : s.hostIsHarmless) {a : HostMove}
    {p : List HostAct} (hp : s.pending = .move a :: p) :
    a ≠ .assertReset ∧ ∃ t, hostMove a s.popPending = .next t := by
  obtain ⟨hreset, hcopy⟩ := h
  rw [hp] at hreset hcopy
  refine ⟨by rintro rfl; simp at hreset, ?_⟩
  cases hm : hostMove a s.popPending with
  | next t => exact ⟨t, rfl⟩
  | fault r =>
    obtain ⟨-, hres, q, rfl⟩ := hostMove_eq_fault_iff.1 hm
    exact absurd (List.mem_cons_self ..) (hcopy hres q)
  | refused r => exact absurd hm (hostMove_ne_refused _ _ _)

/-- The turn in which the host makes such a move leaves the block as it is (R207). -/
theorem State.hostIsHarmless.exists_plays_move {s : State} (h : s.hostIsHarmless) {a : HostMove}
    {p : List HostAct} (hp : s.pending = .move a :: p) : ∃ t, Plays [.host] s t ∧ s.Stays 0 t := by
  obtain ⟨ha, t, ht⟩ := h.exists_next hp
  have hk := hostMove_sameBlock (s := { s with turns := .host :: s.turns }) ht ha
  obtain ⟨hnow, hpend⟩ := hostMove_now_pending ht
  refine ⟨t, .of_step fun rest => ?_, ⟨⟨hk.data, hk.clk, hk.ceN, hk.txPhase, hk.txWord, hk.txBit,
    hk.txT0, hk.history, hk.params, hk.now_le, hk.resetIn⟩, hk.res, hk.fault⟩, hnow, ?_⟩
  · have hnext : State.nextHostMove { s with turns := .host :: rest } = some a :=
      State.nextHostMove_iff.2 ⟨rest, p, rfl, hp⟩
    exact (step_of_nextHostMove hnext).trans (hostMove_turns ht ha rest)
  · rw [hpend]
    exact List.tail_subset _

/-- The turn of a host that does no harm leaves a block that is sending as it is: the host waits, or it makes a
move (R206, R207). -/
theorem exists_plays_host {s : State} (hne : s.txPhase ≠ .idle) (hh : s.hostIsHarmless) :
    ∃ t, Plays [.host] s t ∧ s.Stays 0 t := by
  cases hp : s.pending with
  | nil =>
    refine ⟨s, .of_step fun rest => ?_, .refl s⟩
    change hostTurn { s with turns := rest } = _
    rw [hostTurn]
    simp only [hp]
  | cons act p =>
    cases act with
    | awaitReady =>
      have hl : s.lastCompleted = false := by
        rw [← Bool.not_eq_true, State.lastCompleted_iff]
        simp [State.ready, hne]
      refine ⟨s, .of_step fun rest => (hostTurn_of_awaitReady (s := { s with turns := rest }) hp).trans ?_,
        .refl s⟩
      change Host.Outcome.next { s with turns := rest, pending := if s.lastCompleted then _ else _ } = _
      rw [hl, if_neg Bool.false_ne_true, ← hp]
    | move a => exact hh.exists_plays_move hp

/-! ## A SEND that nothing disturbs -/

@[simp] theorem State.txStep_pending (s : State) : s.txStep.pending = s.pending := by
  rw [State.txStep_frame]

theorem State.hostIsHarmless.mono {s t : State} (h : s.hostIsHarmless) (hp : t.pending ⊆ s.pending)
    (hres : t.res = s.res) : t.hostIsHarmless := by
  obtain ⟨hreset, hcopy⟩ := h
  exact ⟨fun hm => hreset (hp hm), fun hn p hm => hcopy (hres ▸ hn) p (hp hm)⟩

/-- A SEND of `w` is in progress, reset is not asserted, and the host will do no harm. -/
structure State.SendsUndisturbed (before : List (Line × Level)) (w : Word16) (s : State) : Prop where
  sending : s.sending before w
  harmless : s.hostIsHarmless
  resetIn : s.resetIn = false

section
variable {before : List (Line × Level)} {w : Word16} {s : State} (h : s.SendsUndisturbed before w)
include h

theorem State.SendsUndisturbed.ne_idle : s.txPhase ≠ .idle := h.sending.1

theorem State.SendsUndisturbed.of_stays {t : State} {d : Nat} (k : s.Stays d t) :
    t.SendsUndisturbed before w where
  sending := k.block.sending h.sending
  harmless := h.harmless.mono k.pending k.block.res
  resetIn := by
    rw [← Bool.not_eq_true]
    intro hr
    simpa [h.resetIn] using k.block.resetIn hr

/-- A turn moves no SEND on but the block's, where the transmitter's step is enabled (R142, R178). -/
theorem State.SendsUndisturbed.exists_plays_stays {a : Turn}
    (hen : a = .block → s.txEnabled = false) : ∃ t, Plays [a] s t ∧ s.Stays a.duration t := by
  cases a with
  | block => exact ⟨s, plays_block_of_not_enabled h.ne_idle (hen rfl), .refl s⟩
  | host => exact exists_plays_host h.ne_idle h.harmless
  | time dt =>
    exact ⟨s.advance dt, .of_step fun _ => rfl, ⟨by constructor <;> simp, rfl, rfl⟩, rfl,
      List.Subset.refl _⟩

/-- The block's turn where the transmitter's step is enabled (R141). -/
theorem State.SendsUndisturbed.plays_txStep (hen : s.txEnabled = true) :
    Plays [.block] s s.txStep :=
  .of_step fun rest => by
    rw [step_of_blockTurn rfl, ← State.txStep_turns h.ne_idle]
    exact (letBlock_of_sending (s := { s with turns := rest }) h.resetIn h.ne_idle).trans
      (congrArg _ (if_pos hen))

end

end Sys2Proof.Machine
end

section
/-! PROOFS. A SEND finishes under every fair schedule (70_reset_and_hazards.md): R214. -/

namespace Sys2Proof.Machine

/-! ## Endless schedules (log 1) -/

/-- The time that the first `n` turns of a schedule take. -/
def elapsed (schedule : Nat → Turn) (n : Nat) : Nat := ((firstTurns schedule n).map Turn.duration).sum

theorem firstTurns_add (schedule : Nat → Turn) (m n : Nat) : firstTurns schedule (m + n) =
    firstTurns schedule m ++ firstTurns (fun k => schedule (m + k)) n := by
  rw [firstTurns, List.range_add, List.map_append, List.map_map]
  rfl

theorem firstTurns_succ (schedule : Nat → Turn) (n : Nat) :
    firstTurns schedule (n + 1) = firstTurns schedule n ++ [schedule n] :=
  firstTurns_add schedule n 1

theorem elapsed_add (schedule : Nat → Turn) (m n : Nat) : elapsed schedule (m + n) =
    elapsed schedule m + elapsed (fun k => schedule (m + k)) n := by
  rw [elapsed, firstTurns_add, List.map_append, List.sum_append]
  rfl

theorem elapsed_succ (schedule : Nat → Turn) (n : Nat) :
    elapsed schedule (n + 1) = elapsed schedule n + (schedule n).duration := by
  rw [elapsed_add]
  simp [elapsed, firstTurns]

theorem elapsed_mono (schedule : Nat → Turn) : Monotone (elapsed schedule) :=
  monotone_nat_of_le_succ fun n => by
    rw [elapsed_succ]
    exact Nat.le_add_right _ _

section
variable {schedule : Nat → Turn} (hf : Fair schedule)
include hf

/-- What is left of a fair schedule after its first turns is fair (R214). -/
theorem Fair.after (m : Nat) : Fair fun k => schedule (m + k) where
  time bound := by
    obtain ⟨n, hn⟩ := hf.time (elapsed schedule m + bound)
    have hle : elapsed schedule n ≤ elapsed schedule (m + n) :=
      elapsed_mono schedule (Nat.le_add_left n m)
    rw [elapsed_add] at hle
    exact ⟨n, Nat.le_of_add_le_add_left (hn.trans hle)⟩
  block n := by
    obtain ⟨k, hk, hb⟩ := hf.block (m + n)
    exact ⟨k - m, by omega, by rwa [Nat.add_sub_of_le (by omega)]⟩

/-- However much time is to pass, the block has a turn after it (R214). -/
theorem Fair.exists_block_after (bound : Nat) : ∃ n, schedule n = .block ∧ bound ≤ elapsed schedule n := by
  obtain ⟨m, hm⟩ := hf.time bound
  obtain ⟨n, hmn, hb⟩ := hf.block m
  exact ⟨n, hb, le_trans hm (elapsed_mono schedule hmn)⟩

end

/-! ## One step of the transmitter under a fair schedule -/

/-- A transmitter outside `Idle` has its step enabled once the longest wait is over (R142). -/
theorem State.txEnabled_of_elapsed {s : State} (hne : s.txPhase ≠ .idle)
    (h : s.txT0 + Config.tFinal ≤ s.now) : s.txEnabled = true := by
  cases hw : s.txPhase.waits with
  | false =>
    obtain ⟨l, b, ha⟩ := State.txAction_of_not_waits hne hw
    rw [State.txEnabled, ha]
  | true =>
    have hmin : s.txPhase.minimum ≤ Config.tFinal := by
      unfold Phase.minimum
      split <;> decide
    rw [State.txEnabled, State.txAction_of_waits hw]
    exact decide_eq_true ((Nat.add_le_add_left hmin _).trans h)

section
variable {before : List (Line × Level)} {w : Word16} {s : State} (h : s.SendsUndisturbed before w)
include h

/-- Until a turn of the block finds the transmitter's step enabled, the SEND stays where it is (R142). -/
theorem State.SendsUndisturbed.exists_plays_until {schedule : Nat → Turn} {n : Nat}
    (hwait : ∀ k < n, schedule k = .block → (s.advance (elapsed schedule k)).txEnabled = false) :
    ∃ t, Plays (firstTurns schedule n) s t ∧ s.Stays (elapsed schedule n) t := by
  induction n with
  | zero => exact ⟨s, fun _ => rfl, .refl s⟩
  | succ n ih =>
    obtain ⟨t, ht, hs⟩ := ih fun k hk => hwait k (by omega)
    obtain ⟨u, hu, hs'⟩ := (h.of_stays hs).exists_plays_stays (a := schedule n)
      fun hb => hs.txEnabled.trans (hwait n (by omega) hb)
    rw [firstTurns_succ, elapsed_succ]
    exact ⟨u, ht.append hu, hs.trans hs'⟩

/-- A fair schedule brings a SEND in progress to its next step (R214). -/
theorem State.SendsUndisturbed.exists_plays_txStep {schedule : Nat → Turn} (hf : Fair schedule) :
    ∃ n d t, Plays (firstTurns schedule n) s t.txStep ∧ s.Stays d t := by
  have hex : ∃ n, schedule n = .block ∧ (s.advance (elapsed schedule n)).txEnabled = true := by
    obtain ⟨n, hb, hn⟩ := hf.exists_block_after (s.txT0 + Config.tFinal)
    exact ⟨n, hb, State.txEnabled_of_elapsed (s := s.advance _) h.ne_idle
      (hn.trans (Nat.le_add_left _ _))⟩
  obtain ⟨hb, hen⟩ := Nat.find_spec hex
  obtain ⟨t, ht, hs⟩ := h.exists_plays_until fun k hk hkb =>
    Bool.eq_false_iff.2 fun hkt => Nat.find_min hex hk ⟨hkb, hkt⟩
  have hstep := (h.of_stays hs).plays_txStep (hs.txEnabled.trans hen)
  refine ⟨Nat.find hex + 1, _, t, ?_, hs⟩
  rw [firstTurns_succ, hb]
  exact ht.append hstep

end

/-! ## All steps of the transmitter (R214) -/

/-- At most how many steps of the transmitter a phase and its bit index have before them: five for each bit, and two
to close (R141). -/
def stepsLeft (p : Phase) (bit : BitVec 4) : Nat :=
  match p with
  | .idle => 0
  | .opening => 85
  | .openClk => 84
  | .settle0 => 83
  | .bitData => 5 * bit.toNat + 7
  | .bitRise => 5 * bit.toNat + 6
  | .bitHigh => 5 * bit.toNat + 5
  | .bitFall => 5 * bit.toNat + 4
  | .bitLow => 5 * bit.toNat + 3
  | .closing => 2
  | .finalWait => 1

theorem State.stepsLeft_txStep_lt {s : State} (hne : s.txPhase ≠ .idle) :
    stepsLeft s.txStep.txPhase s.txStep.txBit < stepsLeft s.txPhase s.txBit := by
  rw [State.txStep_txPhase, State.txStep_txBit]
  cases hp : s.txPhase
  case idle => exact absurd hp hne
  case opening => cases s.params.explicitClkLow <;> simp [txSuccessor, stepsLeft]
  case bitLow =>
    by_cases h0 : s.txBit = 0
    · simp [txSuccessor, stepsLeft, h0]
    · have hsub : (s.txBit - 1).toNat + 1 = s.txBit.toNat := by bv_omega
      simp only [txSuccessor, if_neg h0, stepsLeft]
      omega
  all_goals simp [txSuccessor, stepsLeft]

theorem State.SendsUndisturbed.exists_plays_completion {before : List (Line × Level)} {w : Word16}
    {s : State} (h : s.SendsUndisturbed before w) {schedule : Nat → Turn} (hf : Fair schedule) :
    ∃ n t, Plays (firstTurns schedule n) s t ∧ t.txPhase = .idle ∧ t.txWord = w ∧
      writes t.history = before ++ sendTrace s.params.explicitClkLow w := by
  induction hm : stepsLeft s.txPhase s.txBit using Nat.strong_induction_on generalizing s schedule with
  | _ m ih =>
    obtain ⟨n, d, t, hplays, hs⟩ := h.exists_plays_txStep hf
    have ht := h.of_stays hs
    rcases State.txStep_sending ht.sending with hsend | hdone
    · have hlt := State.stepsLeft_txStep_lt ht.ne_idle
      rw [hs.block.txPhase, hs.block.txBit, hm] at hlt
      have hu : t.txStep.SendsUndisturbed before w :=
        ⟨hsend, ht.harmless.mono (by simp) (by simp), by simp [ht.resetIn]⟩
      obtain ⟨k, u, hplays', hdone⟩ := ih _ hlt hu (hf.after n) rfl
      rw [State.txStep_params, hs.block.params] at hdone
      exact ⟨n + k, u, by rw [firstTurns_add]; exact hplays.append hplays', hdone⟩
    · rw [hs.block.params] at hdone
      exact ⟨n, _, hplays, hdone⟩

/-- Settles O55: a fair schedule brings the SEND to each of its steps, and they are finitely many. -/
theorem sendFinishesUnderFairness : Obligations.SendFinishesUnderFairness := by
  intro schedule s before w hf hinv hs hh
  have hr : s.resetIn = false := by
    rw [← Bool.not_eq_true]
    exact fun hr => hs.1 (hinv.resetIdle hr).1
  obtain ⟨n, t, hplays, hdone⟩ := State.SendsUndisturbed.exists_plays_completion ⟨hs, hh, hr⟩ hf
  have hrun := hplays []
  rw [List.append_nil, firstTurns, List.length_map, List.length_range] at hrun
  exact ⟨n, _, hrun, hdone⟩

end Sys2Proof.Machine
end

section
/-! PROOFS. The startup word (70_reset_and_hazards.md): R197. -/

namespace Sys2Proof.Machine

/-- 1000 Hz (R195). -/
def startupF : F64 := 0x408F400000000000

theorem octEval_startupF : octEval .spec startupF = -1 := by
  have hlow : octLow .spec startupF = -1 := by decide +kernel
  have hhigh : octHigh .spec startupF = -1 := by decide +kernel
  rw [octEval, pick_of_eq (hlow.trans hhigh.symm), hlow]

/-- The exact value is 984.064 (R102). -/
theorem dacEval_startupF : dacEval .spec startupF (-1) = 984 := by
  have hlow : dacLow .spec startupF (-1) = 984 := by decide +kernel
  have hhigh : dacHigh .spec startupF (-1) = 984 := by decide +kernel
  rw [dacEval, pick_of_eq (hlow.trans hhigh.symm), hlow]

theorem controlWord_startupF : (controlWord .spec startupF).setWidth 32 = (0x0000FF60 : Word32) := by
  rw [controlWord, octEval_startupF, dacEval_startupF]
  decide

theorem encodeResult_startupF : encodeResult .spec startupF = .value 0x0000FF60 := by
  have hpos : classify .spec startupF = .pos := by decide +kernel
  rw [encodeResult, byClass_of_pos hpos, controlWord_startupF]

/-- Settles O28: at 1000 Hz the admitted octave and the admitted DAC value are unique (R101, R102). -/
theorem thousandHertzEncodesToFF60 : Obligations.ThousandHertzEncodesToFF60 := by
  intro s hc hparams hf
  have hres : encodeResult s.params s.f = .value 0x0000FF60 := by
    rw [hparams, hf]
    exact encodeResult_startupF
  rw [exec_encode_of_canAccept hc, hres]
  rfl

end Sys2Proof.Machine
end

section
/-! PROOFS. The command port (10_state.md section 2, 20_memory.md section 3): a command is executed exactly where the
block accepts it (R26, R155, R179), and a placed command is accepted (log 20, log 25). -/

namespace Sys2Proof.Machine

/-- The command unit's step on a presented command (R26, R72). -/
theorem step_of_command {s : State} {i : Instr} (hc : s.canAccept = true) (hp : s.presented = true)
    (hd : decode s.cmd = .command i) (hturn : s.turns.headD .block = .block) : step s = exec i s.popTurn :=
  (step_of_acceptable hc hp hturn).trans (acceptCommand_of_command (s := s.popTurn) hd)

/-- Settles O5: the block's turn is listed, or it is the default one and there is none to use up. -/
theorem stepRunsTheDecodedCommand : Obligations.StepRunsTheDecodedCommand := by
  refine fun s i hc hp hd => ⟨fun hturns => ?_, fun rest hturns => ?_⟩
  · rw [step_of_command hc hp hd (by rw [hturns]; rfl), State.popTurn_of_nil hturns]
  · rw [step_of_command hc hp hd (by rw [hturns]; rfl), State.popTurn, hturns, List.tail_cons]

theorem State.withFetchWord_toNat (s : State) (c : Word32) : s.withFetchWord 32 c.toNat = s.placeCommand c := by
  rw [State.withFetchWord, Nat.mod_eq_of_lt c.isLt, BitVec.ofNat_toNat, BitVec.setWidth_eq]

theorem State.placeCommand_canAccept (s : State) (c : Word32) : (s.placeCommand c).canAccept = true :=
  (State.canAccept_iff _).2 ⟨rfl, rfl, rfl⟩

/-- Settles O6: the placed word decodes to its command, and no turn is listed. -/
theorem placedCommandRunsNext : Obligations.PlacedCommandRunsNext := by
  intro s i
  rw [State.withFetchWord_toNat]
  have hc := s.placeCommand_canAccept (encode i)
  have hstep := (stepRunsTheDecodedCommand (s.placeCommand (encode i)) i hc rfl (decodeInvertsEncode i)).1 rfl
  exact ⟨hstep, rfl, hc⟩

/-- Settles O7: a command that is not accepted is held (`exec_cases`). -/
theorem commandIsNotExecutedUnlessAccepted : Obligations.CommandIsNotExecutedUnlessAccepted := by
  intro i s hc
  obtain ⟨t, ht⟩ := exec_next i s
  obtain ⟨-, rfl⟩ | ⟨hacc, -⟩ := exec_cases ht
  · exact ht
  · simp [hc] at hacc

end Sys2Proof.Machine
end
